-- ==== Sys2Proof/Word.lean ====
section
/-! DEFINITION. The word types of varint_codec and the 9-byte buffer (spec/00_scope.md R4, R7, spec/10_state.md R27). -/

namespace Sys2Proof

/-- One byte of an encoding (30_encoding.md R62). -/
abbrev Byte := BitVec 8

/-- One bus word, BUS_WIDTH = 32 (00_scope.md R7). -/
abbrev Word := BitVec 32

/-- The Value and the shifter or accumulator, VALUE_WIDTH = 128 (00_scope.md R4, 10_state.md R30). -/
abbrev Wide := BitVec 128

/-- Nine bytes, BUF[0..8] or WB[0..8] (10_state.md R27, R30). -/
abbrev Bytes9 := Vector Byte 9

/-- Nine bytes 0x00. -/
def Bytes9.zero : Bytes9 := #v[0, 0, 0, 0, 0, 0, 0, 0, 0]

end Sys2Proof
end

