-- ==== Sys2Proof/Config.lean ====
section
/-! DEFINITION. The implementation parameters of spec/00_scope.md R4 to R7. Most of those the spec fixes are types of the model:
VALUE_WIDTH is Wide, CHUNK_BITS the 7 of a chunk's type, MAX_BYTES the length of Bytes9, BUS_WIDTH and LEN_WIDTH Word. WINDOW and
the open VARINT_BASE are here. LATENCY, the other open parameter (R7), is no constant: it is the interleaving of events (log
entry 1). -/

namespace Sys2Proof.Config

/-- WINDOW, in bytes (R7, 20_memory.md R40). -/
def window : Nat := 64

/-- What the platform supplies: VARINT_BASE, the bus address of offset 0 (20_memory.md R41).
It is OPEN, so everything that needs it takes it as an argument. A bus address is a Nat, since the spec gives no
address width (log entry 3, DESIGN CHOICE). -/
structure Platform where
  varintBase : Nat
  deriving DecidableEq, Repr

end Sys2Proof.Config
end

