-- ==== Sys2Proof/Syntax.lean ====
section
/-! DEFINITION. Syntax: the command set, the register names, the bus accesses and the events of varint_codec. -/

namespace Sys2Proof

/-- The command set (30_encoding.md R67), one constructor per row of spec/opcode_table.json.
`rsv` is CMD[31:2], which the block ignores (R61, R68); it is kept so that a command word and its syntax determine each
other (log entry 9, DESIGN CHOICE). -/
inductive Instr where
  /-- OP = 0b00 (40_commands.md R77). -/
  | nop (rsv : BitVec 30)
  /-- OP = 0b01 (41_encode.md R85). -/
  | encode (rsv : BitVec 30)
  /-- OP = 0b10 (42_decode.md R100). -/
  | decode (rsv : BitVec 30)
  /-- OP = 0b11, the reserved opcode (40_commands.md R78). -/
  | reserved (rsv : BitVec 30)
  deriving DecidableEq, Repr

/-- The registers of the window (20_memory.md R42), by the names of 30_encoding.md R72. -/
inductive Reg where
  | id | cmd | status
  | value0 | value1 | value2 | value3
  | len
  | buf0 | buf1 | buf2
  deriving DecidableEq, Repr

/-- Read or write: the kind of a bus transaction (30_encoding.md R60). -/
inductive AccessKind where
  | read
  | write (data : Word)
  deriving DecidableEq, Repr

/-- A host access as the platform's bus sees it: MemRead(addr, size) or MemWrite(addr, size, data)
(00_scope.md R9, 20_memory.md R43, R44). -/
structure BusAccess where
  kind : AccessKind
  addr : Nat
  size : Nat
  deriving DecidableEq, Repr

/-- One atomic step of one of the three agents (00_scope.md R13), or a change of the level of the rst port
(20_memory.md R59). Accesses carry the byte offset in the window, bits [5:0] of the address less VARINT_BASE. -/
inductive Event where
  /-- The datapath's micro-step (40_commands.md R80). -/
  | tick
  /-- The host's MemRead(VARINT_BASE + off, size) (20_memory.md R45). -/
  | read (off : BitVec 6) (size : Nat)
  /-- The host's MemWrite(VARINT_BASE + off, size, data) (20_memory.md R46, R47). -/
  | write (off : BitVec 6) (size : Nat) (data : Word)
  /-- One whole reset, a single atomic event (70_reset_and_hazards.md R140). -/
  | reset
  /-- The platform drives rst high (the block resets and is held) or low (R140, R142). -/
  | setRst (level : Bool)
  deriving DecidableEq, Repr

/-- One clock cycle of the input ports (20_memory.md R59); addr is off[5:2]. -/
structure Pins where
  rst : Bool
  sel : Bool
  we : Bool
  addr : BitVec 4
  wdata : Word
  deriving DecidableEq, Repr

/-- The host notation of 30_encoding.md R72 and the pseudo-instructions of R73, but for the loop `wait`, which is
host control flow (Machine/HostProgram.lean). -/
inductive HostOp where
  | wr (reg : Reg) (imm : Word)
  | rd (reg : Reg)
  | nop
  | encode
  | decode
  | setv (n : Wide)
  | setbuf (bytes : Bytes9) (length : Word)
  | clrovr
  deriving DecidableEq, Repr

end Sys2Proof
end

