-- ==== Sys2Proof/WellFormed.lean ====
section
/-! DEFINITION. Which syntax the spec admits. A command word is never ill-formed (30_encoding.md R68, R69), so the checks
are those of the accesses and of the platform. -/

namespace Sys2Proof

/-- Every command is well-formed: reserved bits are ignored and OP = 0b11 is a command with its own outcome (R68, R69). -/
def Instr.wellFormed : Instr → Bool
  | .nop _ => true
  | .encode _ => true
  | .decode _ => true
  | .reserved _ => true

/-- Software should write CMD[31:2] as 0 (R68); U7 of 93_implementation_defined.md lets a linting model flag a command
that does not. The block executes it either way, so no meaning looks at this. -/
def Instr.lintClean : Instr → Bool
  | .nop r => r == 0
  | .encode r => r == 0
  | .decode r => r == 0
  | .reserved r => r == 0

/-- An event is admitted when its access, if it is one, is 32 bits wide (20_memory.md R43). -/
def Event.wellFormed : Event → Bool
  | .tick => true
  | .read _ size => size == 4
  | .write _ size _ => size == 4
  | .reset => true
  | .setRst _ => true

/-- VARINT_BASE is aligned to 64 bytes (20_memory.md R41). -/
def Config.Platform.wellFormed (p : Config.Platform) : Bool := p.varintBase % Config.window == 0

/-- The interconnect presents an access to the block when it falls in the window (20_memory.md R41). -/
def Config.Platform.selects (p : Config.Platform) (addr : Nat) : Bool :=
  decide (p.varintBase ≤ addr ∧ addr < p.varintBase + Config.window)

/-- A bus access the model admits: in the window and 32 bits wide (R41, R43). -/
def BusAccess.wellFormed (p : Config.Platform) (a : BusAccess) : Bool :=
  p.selects a.addr && a.size == 4

end Sys2Proof
end

