-- ==== Sys2Proof/Decode.lean ====
section
/-! DEFINITION. The command word: decoder and encoder (spec/30_encoding.md R60, R61, R67, R68, spec/opcode_table.json). -/

namespace Sys2Proof

/-- OP = w[1:0] (R61). -/
def opField (w : Word) : BitVec 2 := w.extractLsb' 0 2

/-- RSV = w[31:2] (R61). -/
def rsvField (w : Word) : BitVec 30 := w.extractLsb' 2 30

/-- The command a word spells: OP alone selects it, whatever RSV holds (R67, R68). -/
def decodeWord (w : Word) : Instr :=
  match (opField w).toNat with
  | 0 => .nop (rsvField w)
  | 1 => .encode (rsvField w)
  | 2 => .decode (rsvField w)
  | _ => .reserved (rsvField w)

/-- Why a string of bytes is no command word. -/
inductive DecodeError where
  /-- A command is exactly one 32-bit word; this many bytes are not (R60, 20_memory.md R43). -/
  | notOneWord (bytes : Nat)
  deriving DecidableEq, Repr

/-- The decoder on any bytes: the four bytes of one word, lowest address first, little-endian (20_memory.md R50; log
entry 10, DEDUCED), or a rejection by name. -/
def decodeBytes : List Byte → Except DecodeError Instr
  | [b0, b1, b2, b3] => .ok (decodeWord (b3 ++ b2 ++ b1 ++ b0))
  | bytes => .error (.notOneWord bytes.length)

/-- OP of a command (R67). -/
def Instr.op : Instr → BitVec 2
  | .nop _ => 0b00
  | .encode _ => 0b01
  | .decode _ => 0b10
  | .reserved _ => 0b11

/-- RSV of a command (R61). -/
def Instr.rsv : Instr → BitVec 30
  | .nop r => r
  | .encode r => r
  | .decode r => r
  | .reserved r => r

/-- The command word of an instruction: RSV in bits [31:2], OP in bits [1:0] (R61). -/
def encode (i : Instr) : Word := i.rsv ++ i.op

/-- The bytes of a word in the order of the bus, lowest address first (20_memory.md R50). -/
def wordBytes (w : Word) : List Byte :=
  [w.extractLsb' 0 8, w.extractLsb' 8 8, w.extractLsb' 16 8, w.extractLsb' 24 8]

/-- One row of spec/opcode_table.json. -/
structure OpcodeRow where
  mnemonic : String
  mask : Word
  pattern : Word
  deriving DecidableEq, Repr

/-- spec/opcode_table.json: mnemonic, mask and match of each row. -/
def opcodeTable : List OpcodeRow :=
  [⟨"NOP", 0x00000003, 0x00000000⟩, ⟨"ENCODE", 0x00000003, 0x00000001⟩,
   ⟨"DECODE", 0x00000003, 0x00000002⟩, ⟨"RESERVED", 0x00000003, 0x00000003⟩]

/-- A word is of a row when its masked bits are the row's. -/
def OpcodeRow.covers (r : OpcodeRow) (w : Word) : Bool := w &&& r.mask == r.pattern

/-- The row of the table an instruction stands for. -/
def Instr.mnemonic : Instr → String
  | .nop _ => "NOP"
  | .encode _ => "ENCODE"
  | .decode _ => "DECODE"
  | .reserved _ => "RESERVED"

/-- The instruction the decoder reads from the bits of a table row: the low nbits of w, every bit above them 0. -/
def decodeTableWord (nbits w : Nat) : Option Instr :=
  if nbits ≤ 32 then (decodeBytes (wordBytes (BitVec.ofNat 32 (w % 2 ^ nbits)))).toOption else none

end Sys2Proof
end

