-- ==== Sys2Proof/Machine/State.lean ====
section
/-! DEFINITION. The state of varint_codec as plain data (spec/10_state.md, spec/20_memory.md R59), its reset value
(R33), and the reasons a step can stop. -/

namespace Sys2Proof.Machine

/-- Why the machine stops with a fault. -/
inductive Fault where
  /-- Raised by the datapath's micro-step when IDX is past WB[8] (ENCODE, 41_encode.md R89) or past LEN (DECODE,
  42_decode.md R104, R105): no rule gives that micro-step an effect. R30, R89 and R105 rule it out, so only states no run
  reaches raise it (log entry 6). Safe: the model stops. -/
  | idxOutOfRange
  deriving DecidableEq, Repr

/-- Why a step has no meaning. -/
inductive Refusal where
  /-- Raised by the arms of exec for an instruction without a meaning; no arm raises it now. Safe. -/
  | notModelled (mnemonic : String)
  /-- Raised by a host access whose size in bytes is not 4: "A model admits MemRead(a, n) and MemWrite(a, n, v) only with
  n = 4, and refuses every other width" (20_memory.md R43). Safe: the spec asks for it. -/
  | accessWidth (size : Nat)
  /-- Raised by the bus layer for an address outside the window, which the interconnect never presents to the block
  (20_memory.md R41). Safe. -/
  | outsideWindow (addr : Nat)
  deriving DecidableEq, Repr

/-- OPR, the command in flight (10_state.md R30). -/
inductive Opr where
  | none | enc | dec
  deriving DecidableEq, Repr

/-- The whole state. STATUS.BUSY, ID and CMD are not stored (R17, R18, R20). -/
structure State where
  /-- VALUE (R25). -/
  value : Wide
  /-- LEN (R26). -/
  len : Word
  /-- BUF[0..8] (R27). -/
  buf : Bytes9
  /-- STATUS.DONE (R21). -/
  done : Bool
  /-- STATUS.ERR (R22). -/
  err : Bool
  /-- STATUS.ECODE (R23). -/
  ecode : BitVec 4
  /-- STATUS.UNTERM (R24). -/
  unterm : Bool
  /-- STATUS.TRAIL (R24). -/
  trail : Bool
  /-- STATUS.OVR (R29). -/
  ovr : Bool
  /-- OPR (R30). -/
  opr : Opr
  /-- ACC (R30). -/
  acc : Wide
  /-- IDX (R30). -/
  idx : BitVec 4
  /-- WB[0..8] (R30). -/
  wb : Bytes9
  /-- The level of the input port rst (20_memory.md R59, 70_reset_and_hazards.md R142). -/
  rst : Bool
  /-- The model's own: the events to come, in the total order of R13 and R53 (log entry 1). -/
  pending : List Event
  /-- The model's own, on the host's side: the words read, newest first (30_encoding.md R72, log entry 4). -/
  received : List Word
  deriving DecidableEq, Repr

/-- The block right after reset (10_state.md R33, 70_reset_and_hazards.md R140), rst low, with no event to come. -/
def State.reset : State where
  value := 0
  len := 0
  buf := Bytes9.zero
  done := false
  err := false
  ecode := 0
  unterm := false
  trail := false
  ovr := false
  opr := .none
  acc := 0
  idx := 0
  wb := Bytes9.zero
  rst := false
  pending := []
  received := []

/-- STATUS.BUSY = (OPR != NONE) (R20). -/
abbrev State.busy (s : State) : Bool := s.opr != Opr.none

end Sys2Proof.Machine
end

