-- ==== Sys2Proof/Machine/Operands.lean ====
section
/-! DEFINITION. Operand assembly (spec/30_encoding.md R71) and the pure functions of the codec: bit_length, nb, enc, dec
(spec/00_scope.md R10, R11, spec/41_encode.md R86, spec/42_decode.md R101), and the varint format itself
(spec/30_encoding.md R62 to R65). -/

namespace Sys2Proof.Machine

/-- bit_length(n): the least k with n < 2^k (R10). -/
def bitLength (n : Nat) : Nat := if n = 0 then 0 else n.log2 + 1

/-- nb(n): the least number of 7-bit groups, at least 1 (R11). -/
def nb (n : Nat) : Nat := if n = 0 then 1 else (bitLength n + 6) / 7

/-- Chunk k of a value, n[7k+6 : 7k] (R62). -/
def chunkOf (n : Wide) (k : Nat) : BitVec 7 := n.extractLsb' (7 * k) 7

/-- A byte of an encoding: the chunk in bits 6:0, the continuation bit in bit 7 (R62). -/
def mkByte (more : Bool) (chunk : BitVec 7) : Byte :=
  chunk.setWidth 8 ||| (if more then 0x80 else 0x00)

/-- The continuation bit of a byte (R62). -/
def continues (b : Byte) : Bool := b.getLsbD 7

/-- The chunk of a byte (R62). -/
def chunkBits (b : Byte) : BitVec 7 := b.extractLsb' 0 7

/-- The decoder's operand: chunk of byte k zero-extended to 128 bits at bit 7k (R71). -/
def placeChunk (b : Byte) (k : Nat) : Wide := (chunkBits b).setWidth 128 <<< (7 * k)

/-- Byte i of enc(n) (R86). -/
def encByte (n : Wide) (i : Nat) : Byte := mkByte (decide (i + 1 < nb n.toNat)) (chunkOf n i)

/-- enc(n), of length nb(n) (R86). The spec defines it for n < 2^63. -/
def enc (n : Wide) : List Byte := (List.range (nb n.toNat)).map (encByte n)

/-- The nine bytes a successful ENCODE leaves in BUF: enc(n), then 0x00 (R85). -/
def encBuf (n : Wide) : Bytes9 :=
  Vector.ofFn fun i => if i.val < nb n.toNat then encByte n i.val else 0x00

/-- Byte k of a nine-byte array; no rule reads past index 8, and there it is 0x00. -/
def byteAt (b : Bytes9) (k : Nat) : Byte := b.getD k 0x00

/-- The index of the first of the first `l` bytes with its continuation bit clear: the terminator (R101, R14). -/
def terminator (b : Bytes9) (l : Nat) : Option Nat :=
  (List.range l).find? fun t => !continues (byteAt b t)

/-- The sum of the first `t` chunks, each at its place (R63, R101). -/
def chunkSum (b : Bytes9) : Nat → Wide
  | 0 => 0
  | t + 1 => chunkSum b t + placeChunk (byteAt b t) t

/-- The result of dec (R101). -/
inductive DecResult where
  | outOfRange
  | ok (value : Wide) (unterm trail : Bool)
  deriving DecidableEq, Repr

/-- dec(B, L) (R101). -/
def dec (b : Bytes9) (l : Nat) : DecResult :=
  if l > 9 then .outOfRange
  else match terminator b l with
    | some t => .ok (chunkSum b (t + 1)) false (decide (t + 1 < l))
    | none => .ok 0 true false

/-- A well-formed varint: every byte but the last continues (R64), and there are 1 to 9 of them (R63). -/
def isVarint : List Byte → Bool
  | [] => false
  | [b] => !continues b
  | b :: c :: rest => continues b && isVarint (c :: rest) && decide (rest.length + 2 ≤ 9)

/-- The value of a sequence of bytes: the sum of its chunks, least significant first (R63). -/
def varintValue : List Byte → Nat
  | [] => 0
  | b :: rest => (chunkBits b).toNat + 2 ^ 7 * varintValue rest

/-- The nine-byte buffer whose first bytes are a list's, then 0x00. -/
def padded (l : List Byte) : Bytes9 := Vector.ofFn fun i => l.getD i.val 0x00

end Sys2Proof.Machine
end

