-- ==== Sys2Proof/Machine/Flags.lean ====
section
/-! DEFINITION. STATUS: its word, its error codes and who writes each field (spec/10_state.md R19 to R24, R29, R32,
spec/60_exceptions.md R121). -/

namespace Sys2Proof.Machine

/-- The error kinds (60_exceptions.md R121). -/
inductive ErrorCode where
  | encOutOfRange
  | decOutOfRange
  | badCommand
  deriving DecidableEq, Repr

/-- The code of each kind in STATUS.ECODE (R121). -/
def ErrorCode.code : ErrorCode → BitVec 4
  | .encOutOfRange => 1
  | .decOutOfRange => 2
  | .badCommand => 3

/-- The word a read of STATUS returns (R19, 20_memory.md R45):
{15'b0, OVR, 6'b0, TRAIL, UNTERM, ECODE[3:0], 1'b0, ERR, DONE, BUSY}. -/
def statusWord (s : State) : Word :=
  0#15 ++ BitVec.ofBool s.ovr ++ 0#6 ++ BitVec.ofBool s.trail ++ BitVec.ofBool s.unterm ++ s.ecode ++ 0#1 ++
    BitVec.ofBool s.err ++ BitVec.ofBool s.done ++ BitVec.ofBool s.busy

/-- What every acceptance clears; OVR is unchanged (40_commands.md R76, R78). -/
def clearResult (s : State) : State :=
  { s with done := false, err := false, ecode := 0, unterm := false, trail := false }

/-- A dropped write sets OVR and changes nothing else (20_memory.md R47). -/
def overrun (s : State) : State := { s with ovr := true }

/-- A write to STATUS clears OVR if bit 16 of the word is 1; every other bit is ignored (R19). -/
def writeStatus (w : Word) (s : State) : State := if w.getLsbD 16 then { s with ovr := false } else s

end Sys2Proof.Machine
end

