-- ==== Sys2Proof/Machine/Ops.lean ====
section
/-! DEFINITION. The shared operations: the address map and the registers behind it (spec/20_memory.md R42, R45 to R47),
reset (spec/70_reset_and_hazards.md R140), acceptance (spec/40_commands.md R76) and the two completions, complete_ok (R79) and
complete_error (spec/60_exceptions.md R124). The block takes no exception and returns from none (R120, R129, R130):
complete_error is what stands in their place. -/

namespace Sys2Proof.Machine

/-- The outcome of a step of this machine. -/
abbrev Outcome := Host.Outcome State Fault Refusal

/-- ID (10_state.md R17). -/
def idWord : Word := 0x55560001

/-- The address map by word offset off[5:2] (20_memory.md R42); none is a reserved offset (10_state.md R28). -/
def regAt (o : BitVec 4) : Option Reg :=
  match o.toNat with
  | 0 => some .id
  | 1 => some .cmd
  | 2 => some .status
  | 4 => some .value0
  | 5 => some .value1
  | 6 => some .value2
  | 7 => some .value3
  | 8 => some .len
  | 9 => some .buf0
  | 10 => some .buf1
  | 11 => some .buf2
  | _ => none

/-- The byte offset of each register (R42). -/
def regOffset : Reg → BitVec 6
  | .id => 0x00
  | .cmd => 0x04
  | .status => 0x08
  | .value0 => 0x10
  | .value1 => 0x14
  | .value2 => 0x18
  | .value3 => 0x1C
  | .len => 0x20
  | .buf0 => 0x24
  | .buf1 => 0x28
  | .buf2 => 0x2C

/-- off[5:2]: bits [1:0] of a byte offset do not reach the block (20_memory.md R44). -/
def wordOffset (off : BitVec 6) : BitVec 4 := off.extractLsb' 2 4

/-- The word a register reads as (20_memory.md R45). -/
def readReg (s : State) : Reg → Word
  | .id => idWord
  | .cmd => 0
  | .status => statusWord s
  | .value0 => s.value.extractLsb' 0 32
  | .value1 => s.value.extractLsb' 32 32
  | .value2 => s.value.extractLsb' 64 32
  | .value3 => s.value.extractLsb' 96 32
  | .len => s.len
  | .buf0 => s.buf[3] ++ s.buf[2] ++ s.buf[1] ++ s.buf[0]
  | .buf1 => s.buf[7] ++ s.buf[6] ++ s.buf[5] ++ s.buf[4]
  | .buf2 => 0#24 ++ s.buf[8]

/-- The word at a word offset; a reserved offset reads 0 (R45). -/
def readWord (s : State) (o : BitVec 4) : Word :=
  match regAt o with
  | some r => readReg s r
  | none => 0

/-- VALUE with word k replaced (10_state.md R25). -/
def setValueWord (v : Wide) (k : Fin 4) (w : Word) : Wide :=
  (v &&& ~~~((0xFFFFFFFF : Wide) <<< (32 * k.val))) ||| (w.setWidth 128 <<< (32 * k.val))

/-- BUF with bytes 4k to 4k+3 replaced by a word's, k = 0 or 1 (10_state.md R27, 20_memory.md R50). -/
def setBufWord (b : Bytes9) (k : Fin 2) (w : Word) : Bytes9 :=
  (((b.set (4 * k.val) (w.extractLsb' 0 8)).set (4 * k.val + 1) (w.extractLsb' 8 8)).set
    (4 * k.val + 2) (w.extractLsb' 16 8)).set (4 * k.val + 3) (w.extractLsb' 24 8)

/-- A write to a data register while BUSY = 0 (20_memory.md R46). ID ignores it (10_state.md R17); a write to CMD is a
command and one to STATUS is `writeStatus`, so neither changes anything here. -/
def storeReg (r : Reg) (w : Word) (s : State) : State :=
  match r with
  | .id => s
  | .cmd => s
  | .status => s
  | .value0 => { s with value := setValueWord s.value 0 w }
  | .value1 => { s with value := setValueWord s.value 1 w }
  | .value2 => { s with value := setValueWord s.value 2 w }
  | .value3 => { s with value := setValueWord s.value 3 w }
  | .len => { s with len := w }
  | .buf0 => { s with buf := setBufWord s.buf 0 w }
  | .buf1 => { s with buf := setBufWord s.buf 1 w }
  | .buf2 => { s with buf := s.buf.set 8 (w.extractLsb' 0 8) }

/-- A write to a register other than CMD: STATUS and ID as at any time, a data register by BUSY (20_memory.md R46, R47). -/
def writeReg (r : Reg) (w : Word) (s : State) : State :=
  match r with
  | .id => s
  | .status => writeStatus w s
  | .cmd | .value0 | .value1 | .value2 | .value3 | .len | .buf0 | .buf1 | .buf2 =>
    if s.busy then overrun s else storeReg r w s

/-- reset(): every piece of the block's state to its reset value (70_reset_and_hazards.md R140). The level of rst, the
events to come and the words the host has read are outside the block and stay. -/
def resetBlock (s : State) : State :=
  { State.reset with rst := s.rst, pending := s.pending, received := s.received }

/-- A write to CMD does what the command says while BUSY = 0, and is dropped, setting OVR, while BUSY = 1
(10_state.md R18, 20_memory.md R47, 40_commands.md R75, R77; log entry 8). -/
def onCommand (effect : State → State) (s : State) : Outcome :=
  .next (if s.busy then overrun s else effect s)

/-- accept(op): the per-command status is cleared and BUSY reads 1 from now on (40_commands.md R76). The family's
initialisation follows it. -/
def accept (op : Opr) (s : State) : State := { clearResult s with opr := op }

/-- complete_ok() (40_commands.md R79). ERR and ECODE stay as acceptance left them. -/
def completeOk (s : State) : State := { s with opr := .none, done := true }

/-- complete_error(code) (60_exceptions.md R124). No data register, UNTERM, TRAIL or OVR changes. -/
def completeError (c : ErrorCode) (s : State) : State :=
  { s with opr := .none, done := true, err := true, ecode := c.code }

end Sys2Proof.Machine
end

