-- ==== Sys2Proof/Machine/Decoder.lean ====
section
/-! DEFINITION. DECODE: acceptance and micro-steps, the 7-bit extractor and the byte-stream parser
(spec/42_decode.md R102 to R107). -/

namespace Sys2Proof.Machine

/-- Acceptance of DECODE: accept(DEC), then ACC and IDX (40_commands.md R76, 42_decode.md R102). -/
def acceptDecode (s : State) : State :=
  { accept .dec s with acc := 0, idx := 0 }

/-- DECODE written to CMD (42_decode.md R100): its acceptance; the micro-steps follow as datapath steps. -/
def execDecode (_rsv : BitVec 30) (s : State) : Outcome := onCommand acceptDecode s

/-- decode_step() (42_decode.md R103 to R107). -/
def decodeStep (s : State) : Outcome :=
  if s.len.toNat > 9 then .next (completeError .decOutOfRange s)
  else if s.idx.toNat = s.len.toNat then .next (completeOk { s with value := 0, unterm := true })
  else if s.idx.toNat < s.len.toNat then
    let b := byteAt s.buf s.idx.toNat
    let s' : State := { s with acc := s.acc ||| placeChunk b s.idx.toNat }
    if continues b then .next { s' with idx := s'.idx + 1 }
    else .next (completeOk { s' with value := s'.acc, trail := decide (s'.idx.toNat + 1 < s'.len.toNat) })
  else .fault .idxOutOfRange

end Sys2Proof.Machine
end

