-- ==== Sys2Proof/Machine/Encode.lean ====
section
/-! DEFINITION. ENCODE: acceptance and micro-steps, the 7-bit shifter and the continuation-bit generator
(spec/41_encode.md R87 to R90). -/

namespace Sys2Proof.Machine

/-- Acceptance of ENCODE: accept(ENC), then ACC, IDX and WB (40_commands.md R76, 41_encode.md R87). -/
def acceptEncode (s : State) : State :=
  let s := accept .enc s
  { s with acc := s.value, idx := 0, wb := Bytes9.zero }

/-- ENCODE written to CMD (41_encode.md R85): its acceptance; the micro-steps follow as datapath steps. -/
def execEncode (_rsv : BitVec 30) (s : State) : Outcome := onCommand acceptEncode s

/-- finish_encode(k): BUF, LEN and completion in one step (41_encode.md R90). -/
def finishEncode (k : Nat) (s : State) : State :=
  completeOk { s with buf := s.wb, len := BitVec.ofNat 32 k }

/-- encode_step() (41_encode.md R88, R89). -/
def encodeStep (s : State) : Outcome :=
  let k := nb s.value.toNat
  if k > 9 then .next (completeError .encOutOfRange s)
  else if h : s.idx.toNat < 9 then
    let last := decide (s.idx.toNat + 1 = k)
    let emitted : State :=
      { s with
        wb := s.wb.set s.idx.toNat (mkByte (!last) (s.acc.extractLsb' 0 7)) h
        acc := s.acc >>> 7
        idx := s.idx + 1 }
    .next (if last then finishEncode k emitted else emitted)
  else .fault .idxOutOfRange

end Sys2Proof.Machine
end

