-- ==== Sys2Proof/Machine/Datapath.lean ====
section
/-! DEFINITION. The datapath agent: tick() (spec/40_commands.md R80) and runs of it. -/

namespace Sys2Proof.Machine

/-- tick() (40_commands.md R80). While rst is asserted reset has precedence and nothing moves
(60_exceptions.md R127, 70_reset_and_hazards.md R140; log entry 5). -/
def tick (s : State) : Outcome :=
  if s.rst then .next s
  else match s.opr with
    | .none => .next s
    | .enc => encodeStep s
    | .dec => decodeStep s

/-- n datapath steps, one after another, stopping at a fault. -/
def ticks : Nat → State → Outcome
  | 0, s => .next s
  | n + 1, s =>
    match tick s with
    | .next t => ticks n t
    | .fault f => .fault f
    | .refused r => .refused r

end Sys2Proof.Machine
end

