-- ==== Sys2Proof/Machine/Command.lean ====
section
/-! DEFINITION. The commands that are not codec operations: NOP and the reserved opcode (spec/40_commands.md R77, R78). -/

namespace Sys2Proof.Machine

/-- NOP: no effect at all while idle (40_commands.md R77). -/
def execNop (_rsv : BitVec 30) (s : State) : Outcome := onCommand id s

/-- bad_command() (40_commands.md R78). -/
def badCommand (s : State) : State := completeError .badCommand (clearResult s)

/-- The reserved opcode completes at acceptance with BAD_COMMAND (40_commands.md R78). -/
def execReserved (_rsv : BitVec 30) (s : State) : Outcome := onCommand badCommand s

end Sys2Proof.Machine
end

