-- ==== Sys2Proof/Machine/Dispatch.lean ====
section
/-! DEFINITION. exec: the meaning of a command word written to CMD, one arm per row of the opcode table
(spec/40_commands.md R75). -/

namespace Sys2Proof.Machine

def exec (i : Instr) (s : State) : Host.Outcome State Fault Refusal :=
  match i with
  -- 40_commands.md R77
  | .nop rsv => Sys2Proof.Machine.execNop rsv s
  -- 41_encode.md R85
  | .encode rsv => Sys2Proof.Machine.execEncode rsv s
  -- 42_decode.md R100
  | .decode rsv => Sys2Proof.Machine.execDecode rsv s
  -- 40_commands.md R78
  | .reserved rsv => Sys2Proof.Machine.execReserved rsv s

end Sys2Proof.Machine
end

