-- ==== Sys2Proof/Machine/Bus.lean ====
section
/-! DEFINITION. The host agent: bus reads and writes (spec/20_memory.md R43 to R48), the platform's address decode in
front of them (R41, R44), the reset input (spec/70_reset_and_hazards.md R140 to R142), and the run of a list of events
(spec/00_scope.md R13). -/

namespace Sys2Proof.Machine

/-- MemRead(VARINT_BASE + off, size): the word goes to the host and nothing else changes (20_memory.md R45). While rst is
asserted it is the word of the reset state (70_reset_and_hazards.md R142). -/
def busRead (off : BitVec 6) (size : Nat) (s : State) : Outcome :=
  if size ≠ 4 then .refused (.accessWidth size)
  else .next { s with received := readWord (if s.rst then State.reset else s) (wordOffset off) :: s.received }

/-- MemWrite(VARINT_BASE + off, size, w): a write to CMD runs the command the word spells, any other the register's rule,
a reserved offset ignores it (20_memory.md R46, R47), and so does everything while rst is asserted
(70_reset_and_hazards.md R142). -/
def busWrite (off : BitVec 6) (size : Nat) (w : Word) (s : State) : Outcome :=
  if size ≠ 4 then .refused (.accessWidth size)
  else if s.rst then .next s
  else match regAt (wordOffset off) with
    | none => .next s
    | some .cmd => exec (decodeWord w) s
    | some r => .next (writeReg r w s)

/-- One event of one agent (00_scope.md R13). A reset as one event ends with rst low (70_reset_and_hazards.md R140). -/
def runEvent (e : Event) (s : State) : Outcome :=
  match e with
  | .tick => tick s
  | .read off size => busRead off size s
  | .write off size w => busWrite off size w s
  | .reset => .next { resetBlock s with rst := false }
  | .setRst true => .next { resetBlock s with rst := true }
  | .setRst false => .next { s with rst := false }

/-- Events one after another, in the single total order of 20_memory.md R53, stopping at a fault or a refusal. -/
def runEvents : List Event → State → Outcome
  | [], s => .next s
  | e :: rest, s =>
    match runEvent e s with
    | .next t => runEvents rest t
    | .fault f => .fault f
    | .refused r => .refused r

/-- The byte offset an address selects: (a - VARINT_BASE), bits [5:0] (20_memory.md R44). -/
def windowOffset (p : Config.Platform) (addr : Nat) : BitVec 6 := BitVec.ofNat 6 (addr - p.varintBase)

/-- The event a bus access becomes at the block, or the refusal of an address outside the window (20_memory.md R41). -/
def presented (p : Config.Platform) (a : BusAccess) : Except Refusal Event :=
  if p.selects a.addr then
    match a.kind with
    | .read => .ok (.read (windowOffset p a.addr) a.size)
    | .write w => .ok (.write (windowOffset p a.addr) a.size w)
  else .error (.outsideWindow a.addr)

/-- A host access by bus address, on a platform that puts the window at VARINT_BASE (20_memory.md R40, R41, R44). -/
def busAccess (p : Config.Platform) (a : BusAccess) (s : State) : Outcome :=
  match presented p a with
  | .ok e => runEvent e s
  | .error r => .refused r

end Sys2Proof.Machine
end

