-- ==== Sys2Proof/Machine/Step.lean ====
section
/-! DEFINITION. One step of the machine, and how the host's next command word is placed. -/

namespace Sys2Proof.Machine

/-- One step: the next event of the total order (00_scope.md R13, 20_memory.md R53); when no event is left, the datapath
steps, which is the weak fairness of 70_reset_and_hazards.md R150 (log entry 1). -/
def step (s : State) : Host.Outcome State Fault Refusal :=
  match s.pending with
  | [] => tick s
  | e :: rest => runEvent e { s with pending := rest }

/-- s with the host's next transaction a write of the command word to CMD (offset 0x04), rst low so that the write takes
effect (40_commands.md R75, 70_reset_and_hazards.md R142; log entry 2). -/
def State.withFetchWord (s : State) (nbits w : Nat) : State :=
  { s with rst := false, pending := .write 0x04 4 (BitVec.ofNat 32 (w % 2 ^ nbits)) :: s.pending }

end Sys2Proof.Machine
end

