-- ==== Sys2Proof/Machine/Architectural.lean ====
section
/-! DEFINITION. The whole commands as single functions (spec/41_encode.md R85, spec/42_decode.md R100) and their numbers of
micro-steps (spec/41_encode.md R96, spec/42_decode.md R116). The machine never runs these: it takes micro-steps, and claims say
that the two agree. -/

namespace Sys2Proof.Machine

/-- ENCODE from acceptance to completion (41_encode.md R85, after the clearing of 40_commands.md R76). -/
def archEncode (s : State) : State :=
  let s := clearResult s
  if 2 ^ 63 ≤ s.value.toNat then completeError .encOutOfRange s
  else completeOk { s with buf := encBuf s.value, len := BitVec.ofNat 32 (nb s.value.toNat) }

/-- DECODE from acceptance to completion (42_decode.md R100). -/
def archDecode (s : State) : State :=
  let s := clearResult s
  match dec s.buf s.len.toNat with
  | .outOfRange => completeError .decOutOfRange s
  | .ok value unterm trail => completeOk { s with value := value, unterm := unterm, trail := trail }

/-- Micro-steps of an ENCODE (41_encode.md R96). -/
def encodeSteps (s : State) : Nat := if s.value.toNat < 2 ^ 63 then nb s.value.toNat else 1

/-- Micro-steps of a DECODE (42_decode.md R116). -/
def decodeSteps (s : State) : Nat :=
  if s.len.toNat > 9 then 1
  else match terminator s.buf s.len.toNat with
    | some t => t + 1
    | none => s.len.toNat + 1

/-- The state without ACC, IDX and WB, which the host cannot read and no rule reads while OPR = NONE (10_state.md R30). -/
def State.visible (s : State) : State := { s with acc := 0, idx := 0, wb := Bytes9.zero }

end Sys2Proof.Machine
end

