-- ==== Sys2Proof/Machine/HostProgram.lean ====
section
/-! DEFINITION. Host programs: the notation wr and rd, the pseudo-instructions and the polling loop wait
(spec/30_encoding.md R72, R73). -/

namespace Sys2Proof.Machine

/-- wr REG, imm32 (R72). -/
def wr (r : Reg) (w : Word) : Event := .write (regOffset r) 4 w

/-- rd tN, REG (R72): the word read becomes the newest of State.received. -/
def rd (r : Reg) : Event := .read (regOffset r) 4

/-- The transactions an operation of a host program stands for (R72, R73). -/
def expand : HostOp → List Event
  | .wr r w => [wr r w]
  | .rd r => [rd r]
  | .nop => [wr .cmd 0x00000000]
  | .encode => [wr .cmd 0x00000001]
  | .decode => [wr .cmd 0x00000002]
  | .setv n =>
    [wr .value0 (n.extractLsb' 0 32), wr .value1 (n.extractLsb' 32 32), wr .value2 (n.extractLsb' 64 32),
     wr .value3 (n.extractLsb' 96 32)]
  | .setbuf b l =>
    [wr .buf0 (b[3] ++ b[2] ++ b[1] ++ b[0]), wr .buf1 (b[7] ++ b[6] ++ b[5] ++ b[4]), wr .buf2 (0#24 ++ b[8]),
     wr .len l]
  | .clrovr => [wr .status 0x00010000]

/-- wait tN (R73): read STATUS; if bit 0 of the word is not 0, read again. Between two polls the datapath takes
`between` steps. At most `fuel` polls are made; the answer says whether the loop ended. -/
def wait (between : Nat) : Nat → State → Bool × Outcome
  | 0, s => (false, .next s)
  | fuel + 1, s =>
    match runEvent (rd .status) s with
    | .next t =>
      if (t.received.headD 0).getLsbD 0 then
        match ticks between t with
        | .next u => wait between fuel u
        | .fault f => (false, .fault f)
        | .refused r => (false, .refused r)
      else (true, .next t)
    | .fault f => (false, .fault f)
    | .refused r => (false, .refused r)

end Sys2Proof.Machine
end

