-- ==== Sys2Proof/Machine/Reference.lean ====
section
/-! DEFINITION. The reference implementation's clock cycle (spec/20_memory.md R59, spec/70_reset_and_hazards.md R151, R152).
It is informative: no rule and no step of the model depends on it; it is one of the interleavings. -/

namespace Sys2Proof.Machine

/-- The byte offset of a word offset. -/
def byteOffset (o : BitVec 4) : BitVec 6 := o ++ 0#2

/-- The host access of one cycle: sel = 1 is one access of 20_memory.md R45 to R47 (R59). -/
def cycleAccess (p : Pins) : List Event :=
  if p.sel then
    if p.we then [.write (byteOffset p.addr) 4 p.wdata] else [.read (byteOffset p.addr) 4]
  else []

/-- One rising edge as events: the level of rst, the host access, then one micro-step if OPR was not NONE before the edge
(R151); with rst high there is no micro-step (R140, log entry 11). -/
def cycleEvents (p : Pins) (s : State) : List Event :=
  .setRst p.rst :: cycleAccess p ++ (if !p.rst && s.busy then [.tick] else [])

/-- One clock cycle. -/
def cycle (p : Pins) (s : State) : Outcome := runEvents (cycleEvents p s) s

/-- A run of clock cycles, stopping at a fault or a refusal. -/
def cycles : List Pins → State → Outcome
  | [], s => .next s
  | p :: rest, s =>
    match cycle p s with
    | .next t => cycles rest t
    | .fault f => .fault f
    | .refused r => .refused r

end Sys2Proof.Machine
end

