-- ==== Sys2Proof/Safety.lean ====
section
/-! DEFINITION. What claims say of a run: the invariant of the block, completion after a number of micro-steps, and the
events that leave a command in flight alone. -/

namespace Sys2Proof.Machine

/-- The STATUS fields describe a last completed command or none (10_state.md R21 to R24, 60_exceptions.md R121). -/
structure StatusInv (s : State) : Prop where
  /-- DONE = 1 implies BUSY = 0 (R21). -/
  busy_not_done : s.opr ≠ .none → s.done = false
  /-- ECODE != 0 exactly when ERR = 1 (R23). -/
  err_iff : s.err = true ↔ s.ecode ≠ 0
  /-- ECODE values 4 to 15 are never produced (R121). -/
  ecode_le : s.ecode.toNat ≤ 3
  /-- Only a completion sets ERR (R22). -/
  err_done : s.err = true → s.done = true
  /-- Only a successful completion sets UNTERM (R24). -/
  unterm_ok : s.unterm = true → s.done = true ∧ s.err = false
  /-- Only a successful completion sets TRAIL (R24). -/
  trail_ok : s.trail = true → s.done = true ∧ s.err = false
  /-- UNTERM and TRAIL are never both 1 (R24). -/
  not_both : ¬(s.unterm = true ∧ s.trail = true)

/-- The shifter of an ENCODE in flight after IDX emitted bytes (41_encode.md R87 to R89, R96). -/
structure EncodeInv (s : State) : Prop where
  idx_lt : s.idx.toNat < nb s.value.toNat
  first : nb s.value.toNat > 9 → s.idx = 0
  acc_eq : s.acc = s.value >>> (7 * s.idx.toNat)
  wb_eq : ∀ j < 9, byteAt s.wb j = if j < s.idx.toNat then encByte s.value j else 0x00

/-- The accumulator of a DECODE in flight after IDX scanned bytes (42_decode.md R102 to R107, R116). -/
structure DecodeInv (s : State) : Prop where
  idx_le : s.idx.toNat ≤ s.len.toNat
  first : s.len.toNat > 9 → s.idx = 0
  scanned : ∀ j < s.idx.toNat, continues (byteAt s.buf j) = true
  acc_eq : s.acc = chunkSum s.buf s.idx.toNat

/-- The invariant of the block. -/
structure BlockInv (s : State) : Prop where
  status : StatusInv s
  /-- IDX is never above 9 (10_state.md R16, R30). -/
  idx_le : s.idx.toNat ≤ 9
  enc : s.opr = .enc → EncodeInv s
  dec : s.opr = .dec → DecodeInv s
  /-- While rst is asserted the block holds its reset values (70_reset_and_hazards.md R140, R142). -/
  held : s.rst = true → resetBlock s = s

/-- From s, exactly k datapath steps bring the command in flight to completion, in t. -/
def CompletesAfter (k : Nat) (s t : State) : Prop :=
  (∀ j < k, ∃ u, ticks j s = .next u ∧ u.opr ≠ .none) ∧ ticks k s = .next t ∧ t.opr = .none

/-- An event that is no reset and is admitted: a datapath step or a 32-bit access (20_memory.md R43). -/
def calm : Event → Bool
  | .tick => true
  | .read _ size => size == 4
  | .write _ size _ => size == 4
  | .reset => false
  | .setRst _ => false

/-- The registers whose write is dropped while BUSY = 1 (20_memory.md R47). -/
def droppedWhileBusy (r : Reg) : Bool :=
  match r with
  | .id => false
  | .status => false
  | .cmd | .value0 | .value1 | .value2 | .value3 | .len | .buf0 | .buf1 | .buf2 => true

/-- The per-command fields of STATUS: DONE, ERR, ECODE, UNTERM, TRAIL. -/
def resultFields (s : State) : Bool × Bool × BitVec 4 × Bool × Bool := (s.done, s.err, s.ecode, s.unterm, s.trail)

/-- A state without what the host's own accesses leave in it: OVR, the words read and the events to come. -/
def withoutHost (s : State) : State := { s.visible with ovr := false, received := [], pending := [] }

end Sys2Proof.Machine
end

