-- ==== Sys2Proof/Certificates/Slice0/Obligations.lean ====
section
/-! DEFINITION. The statements for the provers, from the numbered rules of spec/. -/

open Sys2Proof Sys2Proof.Machine

-- ==== Reset ====

/-- 10_state.md R33: every register of the block at its reset value, and what the window reads as. -/
def Obligations.ResetValuesOfEveryRegister : Prop :=
  State.reset.value = 0 ∧ State.reset.len = 0 ∧ (∀ i (h : i < 9), State.reset.buf[i] = 0x00) ∧
  State.reset.opr = .none ∧ State.reset.acc = 0 ∧ State.reset.idx = 0 ∧ (∀ i (h : i < 9), State.reset.wb[i] = 0x00) ∧
  State.reset.done = false ∧ State.reset.err = false ∧ State.reset.ecode = 0 ∧ State.reset.unterm = false ∧
  State.reset.trail = false ∧ State.reset.ovr = false ∧ State.reset.busy = false ∧
  readReg State.reset .status = 0x00000000 ∧ readReg State.reset .id = 0x55560001 ∧ readReg State.reset .cmd = 0

/-- 70_reset_and_hazards.md R141: a reset, from any state, a command in flight or not, leaves every register of the block
at its reset value (the level of rst apart). What the host has read and the events to come, which are no registers of the
block, stay. -/
def Obligations.ResetAbandonsCommand : Prop :=
  ∀ (s : State) (rest : List Event), s.pending = .reset :: rest →
    ∃ level, step s = .next { State.reset with rst := level, pending := rest, received := s.received }

/-- 70_reset_and_hazards.md R142: while rst is asserted a write of any word anywhere changes nothing, OVR included, and a
read gives the host the word of the reset state and changes nothing else. -/
def Obligations.HeldResetIgnoresAccesses : Prop :=
  ∀ (s : State), s.rst = true →
    (∀ off w, runEvent (.write off 4 w) s = .next s) ∧
    (∀ off, runEvent (.read off 4) s =
      .next { s with received := readWord State.reset (wordOffset off) :: s.received })

/-- THE MODEL'S CHOICE (log entry 5), from 70_reset_and_hazards.md R140, R142 and 60_exceptions.md R127: rst driven high
resets the block from any state; while it is high a datapath step does nothing; driven low again it releases the block and
changes nothing else; a reset as one event ends with rst low. -/
def Obligations.RstLevelResetsAndReleases : Prop :=
  ∀ (s : State),
    runEvent (.setRst true) s =
      .next { State.reset with rst := true, pending := s.pending, received := s.received } ∧
    (s.rst = true → runEvent .tick s = .next s) ∧
    runEvent (.setRst false) s = .next { s with rst := false } ∧
    runEvent .reset s = .next { State.reset with pending := s.pending, received := s.received }

-- ==== Steps, decoding ====

/-- 20_memory.md R53, 00_scope.md R13: a step is the next event of the total order; a write to CMD (word offset 1) runs the
command its word decodes to; with no event left the step is the datapath's (log entry 1). -/
def Obligations.StepRunsDecodedCommand : Prop :=
  (∀ (s : State) off w rest, s.pending = .write off 4 w :: rest → s.rst = false → wordOffset off = 1 →
    step s = exec (decodeWord w) { s with pending := rest }) ∧
  (∀ (s : State) e rest, s.pending = e :: rest → step s = runEvent e { s with pending := rest }) ∧
  (∀ (s : State), s.pending = [] → step s = tick s)

/-- 30_encoding.md R67, R68 and the words of V6, V7 (95_test_vectors.md): sample command words and what they spell. The two
decodeBytes clauses are THE MODEL'S CHOICE (log entry 10, DEDUCED from 20_memory.md R50): the spec gives a command word no
bytes, and the model takes four, little-endian, and rejects any other number; decodeTableWord lays its word out by the same
convention. -/
def Obligations.SampleCommandWordsDecode : Prop :=
  decodeWord 0x00000000 = .nop 0 ∧ decodeWord 0x00000001 = .encode 0 ∧ decodeWord 0x00000002 = .decode 0 ∧
  decodeWord 0x00000003 = .reserved 0 ∧ decodeWord 0xFFFFFFFF = .reserved 0x3FFFFFFF ∧
  decodeWord 0xFFFFFFFD = .encode 0x3FFFFFFF ∧ decodeWord 0x80000002 = .decode 0x20000000 ∧
  decodeTableWord 32 0x00000001 = some (.encode 0) ∧ decodeBytes [0x02, 0x00, 0x00, 0x80] = .ok (.decode 0x20000000) ∧
  decodeBytes [0x02] = .error (.notOneWord 1)

/-- Decoder and encoder agree in both directions: no bit of a command word is dropped, and the table's row covers the word
(30_encoding.md R61, R67). The clauses through bytes (decodeBytes, decodeTableWord) rest on THE MODEL'S CHOICE of a command
word's bytes (log entry 10, DEDUCED from 20_memory.md R50). -/
def Obligations.DecodeEncodeAgree : Prop :=
  (∀ i : Instr, decodeWord (encode i) = i) ∧ (∀ w : Word, encode (decodeWord w) = w) ∧
  (∀ i : Instr, decodeBytes (wordBytes (encode i)) = .ok i) ∧
  (∀ i : Instr, decodeTableWord 32 (encode i).toNat = some i) ∧
  (∀ w : Word, ∀ r ∈ opcodeTable, (r.covers w = true ↔ (decodeWord w).mnemonic = r.mnemonic))

/-- 30_encoding.md R68, 40_commands.md R75: a command word is run by w[1:0] alone. -/
def Obligations.ReservedCommandBitsIgnored : Prop :=
  ∀ (w w' : Word) (s : State), w.extractLsb' 0 2 = w'.extractLsb' 0 2 →
    exec (decodeWord w) s = exec (decodeWord w') s

-- ==== Commands ====

/-- 40_commands.md R77: NOP while idle leaves the whole state unchanged; while busy it is a dropped CMD write. -/
def Obligations.NopHasNoEffect : Prop :=
  ∀ (r : BitVec 30) (s : State),
    (s.opr = .none → exec (.nop r) s = .next s) ∧
    (s.opr ≠ .none → exec (.nop r) s = .next { s with ovr := true })

/-- 40_commands.md R78: the reserved opcode completes at acceptance with BAD_COMMAND and changes nothing else; from reset
STATUS then reads 0x36. -/
def Obligations.ReservedOpcodeCompletesAtOnce : Prop :=
  (∀ (r : BitVec 30) (s : State), s.opr = .none →
    exec (.reserved r) s =
      .next { s with done := true, err := true, ecode := 3, unterm := false, trail := false }) ∧
  (∀ r : BitVec 30, ∃ t, exec (.reserved r) State.reset = .next t ∧ readReg t .status = 0x00000036)

/-- 41_encode.md R87 (after 40_commands.md R76): acceptance of ENCODE while idle, and everything it leaves alone. -/
def Obligations.EncodeAcceptance : Prop :=
  ∀ (r : BitVec 30) (s : State), s.opr = .none →
    exec (.encode r) s =
      .next { s with
        done := false, err := false, ecode := 0, unterm := false, trail := false,
        opr := .enc, acc := s.value, idx := 0, wb := Vector.replicate 9 0x00 }

/-- 42_decode.md R102 (after 40_commands.md R76): acceptance of DECODE while idle, and everything it leaves alone. -/
def Obligations.DecodeAcceptance : Prop :=
  ∀ (r : BitVec 30) (s : State), s.opr = .none →
    exec (.decode r) s =
      .next { s with
        done := false, err := false, ecode := 0, unterm := false, trail := false,
        opr := .dec, acc := 0, idx := 0 }

/-- 20_memory.md R47: any command word written while BUSY = 1 sets OVR and changes nothing else. -/
def Obligations.CommandWhileBusyDropped : Prop :=
  ∀ (i : Instr) (s : State), s.opr ≠ .none → exec i s = .next { s with ovr := true }

-- ==== Bus ====

/-- 20_memory.md R45: what a read of each offset gives the host, and that it changes nothing else. -/
def Obligations.ReadTable : Prop :=
  ∀ (s : State), s.rst = false →
    let got (off : BitVec 6) (w : Word) : Prop :=
      runEvent (.read off 4) s = .next { s with received := w :: s.received }
    got 0x00 0x55560001 ∧ got 0x04 0 ∧
    got 0x08 (0#15 ++ BitVec.ofBool s.ovr ++ 0#6 ++ BitVec.ofBool s.trail ++ BitVec.ofBool s.unterm ++ s.ecode ++ 0#1 ++
      BitVec.ofBool s.err ++ BitVec.ofBool s.done ++ BitVec.ofBool (decide (s.opr ≠ .none))) ∧
    got 0x0C 0 ∧
    got 0x10 (s.value.extractLsb' 0 32) ∧ got 0x14 (s.value.extractLsb' 32 32) ∧
    got 0x18 (s.value.extractLsb' 64 32) ∧ got 0x1C (s.value.extractLsb' 96 32) ∧
    got 0x20 s.len ∧
    got 0x24 (s.buf[3] ++ s.buf[2] ++ s.buf[1] ++ s.buf[0]) ∧
    got 0x28 (s.buf[7] ++ s.buf[6] ++ s.buf[5] ++ s.buf[4]) ∧
    got 0x2C (0#24 ++ s.buf[8]) ∧
    got 0x30 0 ∧ got 0x34 0 ∧ got 0x38 0 ∧ got 0x3C 0

/-- 20_memory.md R46: what a write to each offset does while BUSY = 0, and that it changes nothing else. -/
def Obligations.WriteTableWhileIdle : Prop :=
  ∀ (s : State) (w : Word), s.rst = false → s.opr = .none →
    let does (off : BitVec 6) (t : State) : Prop := runEvent (.write off 4 w) s = .next t
    runEvent (.write 0x04 4 w) s = exec (decodeWord w) s ∧
    does 0x08 { s with ovr := if w.getLsbD 16 then false else s.ovr } ∧
    does 0x10 { s with value := s.value.extractLsb' 32 96 ++ w } ∧
    does 0x14 { s with value := s.value.extractLsb' 64 64 ++ w ++ s.value.extractLsb' 0 32 } ∧
    does 0x18 { s with value := s.value.extractLsb' 96 32 ++ w ++ s.value.extractLsb' 0 64 } ∧
    does 0x1C { s with value := w ++ s.value.extractLsb' 0 96 } ∧
    does 0x20 { s with len := w } ∧
    does 0x24 { s with buf := #v[w.extractLsb' 0 8, w.extractLsb' 8 8, w.extractLsb' 16 8, w.extractLsb' 24 8,
      s.buf[4], s.buf[5], s.buf[6], s.buf[7], s.buf[8]] } ∧
    does 0x28 { s with buf := #v[s.buf[0], s.buf[1], s.buf[2], s.buf[3],
      w.extractLsb' 0 8, w.extractLsb' 8 8, w.extractLsb' 16 8, w.extractLsb' 24 8, s.buf[8]] } ∧
    does 0x2C { s with buf := #v[s.buf[0], s.buf[1], s.buf[2], s.buf[3], s.buf[4], s.buf[5], s.buf[6], s.buf[7],
      w.extractLsb' 0 8] } ∧
    does 0x00 s ∧ does 0x0C s ∧ does 0x30 s ∧ does 0x34 s ∧ does 0x38 s ∧ does 0x3C s

/-- 20_memory.md R47: what a write to each offset does while BUSY = 1. -/
def Obligations.WriteTableWhileBusy : Prop :=
  ∀ (s : State) (w : Word), s.rst = false → s.opr ≠ .none →
    let does (off : BitVec 6) (t : State) : Prop := runEvent (.write off 4 w) s = .next t
    (∀ off ∈ [0x04, 0x10, 0x14, 0x18, 0x1C, 0x20, 0x24, 0x28, 0x2C], does off { s with ovr := true }) ∧
    does 0x08 { s with ovr := if w.getLsbD 16 then false else s.ovr } ∧
    (∀ off ∈ [0x00, 0x0C, 0x30, 0x34, 0x38, 0x3C], does off s)

/-- 20_memory.md R43: an access of another width than 4 bytes is refused by name. That it is so with rst asserted too, and
before anything else is looked at, is the model's choice (log entry 13). -/
def Obligations.OtherWidthsRefused : Prop :=
  ∀ (s : State) off size, size ≠ 4 →
    runEvent (.read off size) s = .refused (.accessWidth size) ∧
    ∀ w, runEvent (.write off size w) s = .refused (.accessWidth size)

/-- 20_memory.md R48: every access (of 4 bytes) completes in one step, in any state, anywhere in the window, whatever the word
written: no wait, no error response. -/
def Obligations.EveryAccessCompletesInOneStep : Prop :=
  ∀ (s : State) off, (∃ t, runEvent (.read off 4) s = .next t) ∧
    ∀ w, ∃ t, runEvent (.write off 4 w) s = .next t

/-- 20_memory.md R41, R44: by bus address, for every aligned VARINT_BASE, an access in the window acts as the access at the
word offset (a - VARINT_BASE) & 0x3C, bits [1:0] ignored. That one outside the window, which the interconnect never presents,
is refused by name, and that an address is a Nat, are THE MODEL'S CHOICE (log entry 3). -/
def Obligations.BusAddressDecode : Prop :=
  ∀ (p : Config.Platform) (a : BusAccess) (s : State), p.wellFormed = true →
    (p.varintBase ≤ a.addr ∧ a.addr < p.varintBase + 64 →
      busAccess p a s =
        runEvent (match a.kind with
          | .read => .read (BitVec.ofNat 6 (a.addr - p.varintBase) &&& 0x3C) a.size
          | .write w => .write (BitVec.ofNat 6 (a.addr - p.varintBase) &&& 0x3C) a.size w) s ∧
      busAccess p { a with addr := a.addr / 4 * 4 } s = busAccess p a s) ∧
    (¬(p.varintBase ≤ a.addr ∧ a.addr < p.varintBase + 64) →
      busAccess p a s = .refused (.outsideWindow a.addr))

/-- 10_state.md R19: the bits of the word a read of STATUS returns; what reset leaves in it; and that a write to STATUS, BUSY
or not, clears OVR if bit 16 is 1 and changes nothing else. -/
def Obligations.StatusRegisterLayout : Prop :=
  (∀ s : State,
    let w := readReg s .status
    w.getLsbD 0 = decide (s.opr ≠ .none) ∧ w.getLsbD 1 = s.done ∧ w.getLsbD 2 = s.err ∧ w.getLsbD 3 = false ∧
    w.extractLsb' 4 4 = s.ecode ∧ w.getLsbD 8 = s.unterm ∧ w.getLsbD 9 = s.trail ∧ w.extractLsb' 10 6 = 0 ∧
    w.getLsbD 16 = s.ovr ∧ w.extractLsb' 17 15 = 0) ∧
  readReg State.reset .status = 0 ∧
  (∀ (s : State) (w : Word), s.rst = false →
    (w.getLsbD 16 = true → runEvent (.write 0x08 4 w) s = .next { s with ovr := false }) ∧
    (w.getLsbD 16 = false → runEvent (.write 0x08 4 w) s = .next s))

/-- 10_state.md R17: ID reads 0x5556_0001 in every state, held in reset or not, and a write to it never has an effect. -/
def Obligations.IdIsConstant : Prop :=
  ∀ (s : State),
    runEvent (.read 0x00 4) s = .next { s with received := (0x5556#16 ++ 0x0001#16) :: s.received } ∧
    ∀ w, runEvent (.write 0x00 4 w) s = .next s

/-- 20_memory.md R50: little-endian packing, BUF[4w+j] = BUFw[8j+7:8j] and VALUEw = VALUE[32w+31:32w], bit by bit; and the
bytes of BUF0 stored little-endian are the first four of BUF in order. -/
def Obligations.RegisterPacking : Prop :=
  ∀ (s : State),
    (∀ j < 4, ∀ i < 8, (byteAt s.buf j).getLsbD i = (readReg s .buf0).getLsbD (8 * j + i)) ∧
    (∀ j < 4, ∀ i < 8, (byteAt s.buf (4 + j)).getLsbD i = (readReg s .buf1).getLsbD (8 * j + i)) ∧
    (∀ i < 8, (byteAt s.buf 8).getLsbD i = (readReg s .buf2).getLsbD i) ∧
    (∀ i < 24, (readReg s .buf2).getLsbD (8 + i) = false) ∧
    (∀ i < 32,
      (readReg s .value0).getLsbD i = s.value.getLsbD i ∧
      (readReg s .value1).getLsbD i = s.value.getLsbD (32 + i) ∧
      (readReg s .value2).getLsbD i = s.value.getLsbD (64 + i) ∧
      (readReg s .value3).getLsbD i = s.value.getLsbD (96 + i)) ∧
    wordBytes (readReg s .buf0) = [s.buf[0], s.buf[1], s.buf[2], s.buf[3]]

/-- 10_state.md R25 to R27: while idle, a data register reads back the word written to it (BUF2 its low byte), and no other
register of the window reads differently. -/
def Obligations.DataRegisterReadsBackWrite : Prop :=
  ∀ (s : State) (r : Reg) (w : Word), s.rst = false → s.opr = .none → r ≠ .id → r ≠ .cmd → r ≠ .status →
    ∃ t, runEvent (.write (regOffset r) 4 w) s = .next t ∧
      readReg t r = (if r = .buf2 then (w.extractLsb' 0 8).setWidth 32 else w) ∧
      (∀ r', r' ≠ r → readReg t r' = readReg s r') ∧
      t.acc = s.acc ∧ t.idx = s.idx ∧ t.wb = s.wb ∧ t.opr = s.opr

/-- 20_memory.md R52: a read changes no register and read again gives the same word; a write to any offset but CMD done twice
leaves the same state as once; a write to CMD is a separate command each time while idle and sets OVR while busy, so it is
not idempotent. -/
def Obligations.ReadsAndRepeatedWrites : Prop :=
  (∀ (s : State) off, ∃ w,
    runEvent (.read off 4) s = .next { s with received := w :: s.received } ∧
    runEvent (.read off 4) { s with received := w :: s.received } = .next { s with received := w :: w :: s.received }) ∧
  (∀ (s t : State) off w, wordOffset off ≠ 1 → runEvent (.write off 4 w) s = .next t →
    runEvent (.write off 4 w) t = .next t) ∧
  (∀ (s : State) off w, wordOffset off = 1 → s.rst = false →
    (s.opr = .none → runEvent (.write off 4 w) s = exec (decodeWord w) s) ∧
    (s.opr ≠ .none → runEvent (.write off 4 w) s = .next { s with ovr := true })) ∧
  (∃ (s t u : State) (w : Word), runEvent (.write 0x04 4 w) s = .next t ∧ runEvent (.write 0x04 4 w) t = .next u ∧ u ≠ t)

/-- 10_state.md R20: BUSY reads OPR != NONE; an idle block becomes busy exactly by a write of ENCODE or DECODE to CMD; a busy
one becomes idle only by its command's completion, which sets DONE, or a reset, and does at each of these. -/
def Obligations.BusyReadsOprAndChanges : Prop :=
  ∀ (s : State), (readReg s .status).getLsbD 0 = decide (s.opr ≠ .none) ∧
    ∀ (e : Event) (t : State), runEvent e s = .next t →
      (s.opr = .none → (t.opr ≠ .none ↔ s.rst = false ∧
        ∃ off w, e = .write off 4 w ∧ wordOffset off = 1 ∧ (w.extractLsb' 0 2 = 0b01 ∨ w.extractLsb' 0 2 = 0b10))) ∧
      (s.opr ≠ .none → t.opr = .none → e = .reset ∨ e = .setRst true ∨ (e = .tick ∧ t.done = true)) ∧
      (e = .reset ∨ e = .setRst true ∨ (e = .tick ∧ s.done = false ∧ t.done = true) → t.opr = .none)

/-- 10_state.md R30: while OPR = NONE no event reads ACC, IDX or WB (with other values in them it does the same to everything
else), and, a reset apart, an event after which OPR is NONE still leaves them as they were. -/
def Obligations.InternalRegistersUnreadWhileIdle : Prop :=
  ∀ (s t : State) (e : Event), s.opr = .none → runEvent e s = .next t →
    (∀ acc idx wb, ∃ t', runEvent e { s with acc := acc, idx := idx, wb := wb } = .next t' ∧ t'.visible = t.visible) ∧
    (e ≠ .reset → e ≠ .setRst true → t.opr = .none → t.acc = s.acc ∧ t.idx = s.idx ∧ t.wb = s.wb)

/-- 10_state.md R29: the events after which OVR reads 1, from any state. -/
def Obligations.OvrSetAndCleared : Prop :=
  ∀ (s t : State) (e : Event), runEvent e s = .next t →
    (t.ovr = true ↔
      (s.rst = false ∧ s.opr ≠ .none ∧
        ∃ off w r, e = .write off 4 w ∧ regAt (wordOffset off) = some r ∧ droppedWhileBusy r = true) ∨
      (s.ovr = true ∧ e ≠ .reset ∧ e ≠ .setRst true ∧
        ¬(s.rst = false ∧ ∃ off w, e = .write off 4 w ∧ wordOffset off = 2 ∧ w.getLsbD 16 = true)))

/-- 10_state.md R32, R21 to R24: DONE, ERR, ECODE, UNTERM and TRAIL change only at a reset, at the acceptance of a command
with OP != 0, or at the completion of the command in flight, which is a datapath step and sets DONE. -/
def Obligations.ResultFieldsChangeOnly : Prop :=
  ∀ (s t : State) (e : Event), runEvent e s = .next t → e ≠ .reset → e ≠ .setRst true →
    resultFields t = resultFields s ∨
    (s.opr = .none ∧ s.rst = false ∧ ∃ off w, e = .write off 4 w ∧ wordOffset off = 1 ∧ w.extractLsb' 0 2 ≠ 0) ∨
    (s.opr ≠ .none ∧ e = .tick ∧ t.opr = .none ∧ t.done = true)

/-- 10_state.md R15, R31: VALUE, LEN and BUF change only at a reset, by an idle host write to their own words, or at a
completion: VALUE at a DECODE's, LEN and BUF at an ENCODE's. -/
def Obligations.DataRegistersChangeOnly : Prop :=
  ∀ (s t : State) (e : Event), runEvent e s = .next t → e ≠ .reset → e ≠ .setRst true →
    let idleWrite (rs : List Reg) : Prop :=
      s.opr = .none ∧ s.rst = false ∧ ∃ off w, ∃ r ∈ rs, e = .write off 4 w ∧ regAt (wordOffset off) = some r
    let completes (o : Opr) : Prop := s.opr = o ∧ e = .tick ∧ t.opr = .none ∧ t.done = true ∧ t.err = s.err
    (t.value = s.value ∨ idleWrite [.value0, .value1, .value2, .value3] ∨ completes .dec) ∧
    (t.len = s.len ∨ idleWrite [.len] ∨ completes .enc) ∧
    (t.buf = s.buf ∨ idleWrite [.buf0, .buf1, .buf2] ∨ completes .enc)

/-- 10_state.md R31, 40_commands.md R81: while a command is in flight and stays in flight, no event but a reset changes VALUE,
LEN, BUF or OPR; and only a datapath step ends it. -/
def Obligations.InputsFrozenWhileBusy : Prop :=
  ∀ (s t : State) (e : Event), s.opr ≠ .none → runEvent e s = .next t → e ≠ .reset → e ≠ .setRst true →
    (t.opr ≠ .none → t.value = s.value ∧ t.len = s.len ∧ t.buf = s.buf ∧ t.opr = s.opr) ∧
    (t.opr = .none → e = .tick)

/-- 60_exceptions.md R124, R129: a step that ends a command in error, for a state whose STATUS is as R21 to R24 say, changes
OPR, DONE, ERR and ECODE only. -/
def Obligations.ErrorCompletionIsPrecise : Prop :=
  ∀ (s t : State) (e : Event), StatusInv s → s.opr ≠ .none → runEvent e s = .next t → t.err = true →
    ((s.opr = .enc ∧ t.ecode = 1) ∨ (s.opr = .dec ∧ t.ecode = 2)) ∧
    t = { s with opr := .none, done := true, err := true, ecode := t.ecode }

-- ==== Datapath ====

/-- 40_commands.md R80: a tick while OPR = NONE changes no state; otherwise it is the step of the family in flight. -/
def Obligations.TickByOperation : Prop :=
  ∀ (s : State), s.rst = false →
    (s.opr = .none → tick s = .next s) ∧ (s.opr = .enc → tick s = encodeStep s) ∧ (s.opr = .dec → tick s = decodeStep s)

/-- 41_encode.md R88: an ENCODE micro-step with VALUE[127:63] != 0, which is the same as nb(VALUE) > 9, is
complete_error(ENC_OUT_OF_RANGE) and nothing else; and no ENCODE micro-step changes VALUE, so nb(VALUE) is the same at each. -/
def Obligations.EncodeRangeCheck : Prop :=
  ∀ (s : State), s.rst = false → s.opr = .enc →
    (s.value.extractLsb' 63 65 ≠ 0 ↔ nb s.value.toNat > 9) ∧
    (s.value.extractLsb' 63 65 ≠ 0 →
      tick s = .next { s with opr := .none, done := true, err := true, ecode := 1 }) ∧
    (∀ t, tick s = .next t → t.value = s.value)

/-- 41_encode.md R89 (with R90): the micro-step of an ENCODE whose VALUE fits, for IDX up to 8: it emits one byte, and when that is
byte nb(VALUE) - 1 it commits WB to BUF and the length to LEN and completes. -/
def Obligations.EncodeMicroStep : Prop :=
  ∀ (s : State) (h : s.idx.toNat < 9), s.rst = false → s.opr = .enc → nb s.value.toNat ≤ 9 →
    let last := decide (s.idx.toNat + 1 = nb s.value.toNat)
    let wb := s.wb.set s.idx.toNat ((s.acc.extractLsb' 0 7).setWidth 8 ||| (if last then 0x00 else 0x80)) h
    (last = false → tick s = .next { s with wb := wb, acc := s.acc >>> 7, idx := s.idx + 1 }) ∧
    (last = true → tick s = .next { s with
      wb := wb, acc := s.acc >>> 7, idx := s.idx + 1,
      buf := wb, len := BitVec.ofNat 32 (nb s.value.toNat), opr := .none, done := true })

/-- 42_decode.md R103 to R107: the micro-step of a DECODE: length check, end of input, one byte extracted, terminator or
continuation. -/
def Obligations.DecodeMicroStep : Prop :=
  ∀ (s : State), s.rst = false → s.opr = .dec →
    (s.len.toNat > 9 → tick s = .next { s with opr := .none, done := true, err := true, ecode := 2 }) ∧
    (s.len.toNat ≤ 9 → s.idx.toNat = s.len.toNat →
      tick s = .next { s with value := 0, unterm := true, opr := .none, done := true }) ∧
    (s.len.toNat ≤ 9 → s.idx.toNat < s.len.toNat →
      let b := byteAt s.buf s.idx.toNat
      let acc := s.acc ||| ((b.extractLsb' 0 7).setWidth 128 <<< (7 * s.idx.toNat))
      (b.getLsbD 7 = false → tick s = .next { s with
        acc := acc, value := acc, trail := decide (s.idx.toNat + 1 < s.len.toNat), opr := .none, done := true }) ∧
      (b.getLsbD 7 = true → tick s = .next { s with acc := acc, idx := s.idx + 1 }))

-- ==== The functions of the codec ====

/-- 00_scope.md R10: bit_length(n) is the least k with n < 2^k. -/
def Obligations.BitLengthIsLeast : Prop :=
  (∀ n, n < 2 ^ bitLength n ∧ ∀ k, n < 2 ^ k → bitLength n ≤ k) ∧
  bitLength 0 = 0 ∧ bitLength 127 = 7 ∧ bitLength 128 = 8

/-- 00_scope.md R11: nb(n) is the least k >= 1 with n < 2^(7k), and it is at most 9 exactly when n < 2^63. -/
def Obligations.NbIsLeast : Prop :=
  (∀ n, 1 ≤ nb n ∧ n < 2 ^ (7 * nb n) ∧ ∀ k, 1 ≤ k → n < 2 ^ (7 * k) → nb n ≤ k) ∧
  (∀ n, nb n ≤ 9 ↔ n < 2 ^ 63) ∧ nb 0 = 1 ∧ (∀ n, n ≠ 0 → nb n = (bitLength n + 6) / 7)

/-- 30_encoding.md R63, R64, 41_encode.md R86: for n < 2^63, enc(n) is a well-formed varint of nb(n) bytes whose chunks are those
of n and whose value is n. -/
def Obligations.EncIsVarintOfValue : Prop :=
  ∀ n : Wide, n.toNat < 2 ^ 63 →
    (enc n).length = nb n.toNat ∧ isVarint (enc n) = true ∧ varintValue (enc n) = n.toNat ∧
    ∀ i (h : i < (enc n).length), chunkBits (enc n)[i] = n.extractLsb' (7 * i) 7

/-- 30_encoding.md R66: enc(n) is minimal and unique: its last chunk is non-zero unless n = 0, and every well-formed varint
of value n is at least as long, and equal to it if it has a non-zero last chunk or one byte. -/
def Obligations.EncIsMinimalAndUnique : Prop :=
  ∀ n : Wide, n.toNat < 2 ^ 63 →
    (n ≠ 0 → ∃ b, (enc n).getLast? = some b ∧ chunkBits b ≠ 0) ∧ (n = 0 → enc n = [0x00]) ∧
    ∀ l : List Byte, isVarint l = true → varintValue l = n.toNat →
      (enc n).length ≤ l.length ∧
      ((l.length = 1 ∨ ∃ b, l.getLast? = some b ∧ chunkBits b ≠ 0) → l = enc n)

/-- 42_decode.md R101, R106, R110: a well-formed varint, minimal or not, followed by any bytes within LEN <= 9, decodes to its
value, with TRAIL exactly when bytes follow. -/
def Obligations.DecOfVarintWithTail : Prop :=
  ∀ l rest : List Byte, isVarint l = true → l.length + rest.length ≤ 9 →
    dec (padded (l ++ rest)) (l.length + rest.length) =
      .ok (BitVec.ofNat 128 (varintValue l)) false (decide (rest ≠ []))

/-- 42_decode.md R101, R109: dec is out of range exactly when the length exceeds 9; within 9 it is unterminated, with value
0, exactly when every byte of the input continues. -/
def Obligations.DecOutOfRangeAndUnterminated : Prop :=
  ∀ (b : Bytes9) (l : Nat),
    (dec b l = .outOfRange ↔ l > 9) ∧
    (l ≤ 9 → ((∀ i < l, (byteAt b i).getLsbD 7 = true) ↔ dec b l = .ok 0 true false))

/-- 42_decode.md R111: a successful decode gives a value below 2^63, never both UNTERM and TRAIL. -/
def Obligations.DecResultRange : Prop :=
  ∀ (b : Bytes9) (l : Nat) (v : Wide) (unterm trail : Bool), dec b l = .ok v unterm trail →
    v.toNat < 2 ^ 63 ∧ ¬(unterm = true ∧ trail = true) ∧ (unterm = true → v = 0)

/-- 42_decode.md R112: dec depends only on the bytes up to the terminator and below the length, and on none when the length
is 0 or above 9. -/
def Obligations.DecReadsOnlyScannedBytes : Prop :=
  ∀ (b b' : Bytes9) (l : Nat),
    (∀ i, l ≤ 9 → i < l → (∀ j < i, (byteAt b j).getLsbD 7 = true) → byteAt b i = byteAt b' i) → dec b l = dec b' l

-- ==== Whole commands ====

/-- 41_encode.md R96 (with R85, R93, R94): from any idle state, ENCODE is accepted and its micro-steps complete after exactly
nb(VALUE) of them, or 1 when VALUE >= 2^63, in the state R85 gives. -/
def Obligations.EncodeAgreesWithArchitecture : Prop :=
  ∀ (r : BitVec 30) (s : State), s.opr = .none → s.rst = false →
    ∃ a t, exec (.encode r) s = .next a ∧
      CompletesAfter (if s.value.toNat < 2 ^ 63 then nb s.value.toNat else 1) a t ∧
      t.visible = (archEncode s).visible

/-- 42_decode.md R116 (with R100, R108, R109): from any idle state, DECODE is accepted and its micro-steps complete after
exactly the number R116 gives, at most 10, in the state R100 gives. -/
def Obligations.DecodeAgreesWithArchitecture : Prop :=
  ∀ (r : BitVec 30) (s : State), s.opr = .none → s.rst = false →
    ∃ a t, exec (.decode r) s = .next a ∧ CompletesAfter (decodeSteps s) a t ∧ decodeSteps s ≤ 10 ∧
      t.visible = (archDecode s).visible

/-- 42_decode.md R114: ENCODE of a value below 2^63, run to completion, then DECODE, run to completion, gives the value back,
with UNTERM, TRAIL and ERR 0. -/
def Obligations.EncodeThenDecodeRoundTrip : Prop :=
  ∀ (r r' : BitVec 30) (s : State), s.opr = .none → s.rst = false → s.value.toNat < 2 ^ 63 →
    ∃ a t b u, exec (.encode r) s = .next a ∧ CompletesAfter (nb s.value.toNat) a t ∧
      exec (.decode r') t = .next b ∧ CompletesAfter (nb s.value.toNat) b u ∧
      u.value = s.value ∧ u.len.toNat = nb s.value.toNat ∧ u.done = true ∧ u.unterm = false ∧ u.trail = false ∧ u.err = false

/-- 10_state.md R31, 70_reset_and_hazards.md R145, R146: whatever the host reads and writes, of any registers and in any
interleaving, between the acceptance of a command and its last micro-step, the command ends in the state its architectural rule
gives for the operands at acceptance, but for OVR and what the host has read. -/
def Obligations.HostCannotDisturbCommand : Prop :=
  ∀ (s : State) (es : List Event), s.opr = .none → s.rst = false → (∀ e ∈ es, calm e = true) →
    (es.count .tick + 1 = encodeSteps s →
      ∃ u t, runEvents es (acceptEncode s) = .next u ∧ u.opr = .enc ∧ tick u = .next t ∧ t.opr = .none ∧
        withoutHost t = withoutHost (archEncode s)) ∧
    (es.count .tick + 1 = decodeSteps s →
      ∃ u t, runEvents es (acceptDecode s) = .next u ∧ u.opr = .dec ∧ tick u = .next t ∧ t.opr = .none ∧
        withoutHost t = withoutHost (archDecode s))

-- ==== Invariants and progress ====

/-- The invariant holds at reset. -/
def Obligations.InvariantAtReset : Prop := BlockInv State.reset

/-- Every step keeps the invariant. Its clause about rst held high rests on the model's reading of that level (log entry 5). -/
def Obligations.InvariantKeptByStep : Prop :=
  ∀ s t : State, BlockInv s → step s = .next t → BlockInv t

/-- Under the invariant a step never faults, and it is refused only for the width of a host access (20_memory.md R43, R48). The fault ruled out here and the place of the width check
are the model's (log entries 6 and 13). -/
def Obligations.StepNeverFaults : Prop :=
  ∀ s : State, BlockInv s →
    (∃ t, step s = .next t) ∨
    ∃ off size rest, size ≠ 4 ∧ step s = .refused (.accessWidth size) ∧
      (s.pending = .read off size :: rest ∨ ∃ w, s.pending = .write off size w :: rest)

/-- 10_state.md R21 to R24: what those rules say of the STATUS fields together is kept by every step, from every state in which
it holds. -/
def Obligations.StatusFieldsConsistent : Prop :=
  ∀ s t : State, StatusInv s → step s = .next t → StatusInv t

/-- 70_reset_and_hazards.md R150: no command hangs. From any state of the invariant with rst low, at most 10 datapath steps
leave the block idle. -/
def Obligations.NoCommandHangs : Prop :=
  ∀ s : State, BlockInv s → s.rst = false → ∃ k ≤ 10, ∃ t, ticks k s = .next t ∧ t.opr = .none

/-- 30_encoding.md R73: the loop wait ends, within 11 polls, when the datapath takes at least one step between two polls, and
it ends idle. The bound on polls and the steps between them are how the model writes the host's loop (log entry 12). -/
def Obligations.WaitLoopEnds : Prop :=
  ∀ (s : State) (between : Nat), BlockInv s → s.rst = false → 1 ≤ between →
    ∃ t, wait between 11 s = (true, .next t) ∧ t.opr = .none

/-- 30_encoding.md R73: setv and setbuf, expanded to their writes and run while idle, leave exactly the operands in VALUE, and in
BUF and LEN. -/
def Obligations.OperandPseudosStoreOperands : Prop :=
  ∀ (s : State), s.rst = false → s.opr = .none →
    (∀ n : Wide, runEvents (expand (.setv n)) s = .next { s with value := n }) ∧
    (∀ (b : Bytes9) (l : Word), runEvents (expand (.setbuf b l)) s = .next { s with buf := b, len := l })

/-- 70_reset_and_hazards.md R151 (informative): the reference clock cycle. While idle it is the access alone, so no micro-step
falls in the cycle that accepts a command; while busy it is the access and then one micro-step, so a data or CMD write in the
cycle that completes a command is dropped and sets OVR, and a read in it sees the registers before the edge. -/
def Obligations.ReferenceCycle : Prop :=
  ∀ (s : State) (p : Pins), s.rst = false → p.rst = false →
    (s.opr = .none → cycle p s = runEvents (cycleAccess p) s) ∧
    (s.opr ≠ .none → p.sel = true → p.we = true →
      ∀ r, regAt p.addr = some r → droppedWhileBusy r = true → cycle p s = tick { s with ovr := true }) ∧
    (s.opr ≠ .none → p.sel = true → p.we = false →
      cycle p s = tick { s with received := readWord s p.addr :: s.received }) ∧
    (s.opr ≠ .none → p.sel = false → cycle p s = tick s)
end

