-- ==== Sys2Proof/Laws/State.lean ====
section
/-! SUPPORT. One lemma per field and per update of State, true by definition, so that no proof unfolds a record update. -/

namespace Sys2Proof.Machine

-- clearResult
@[simp] theorem clearResult_value (s : State) : (clearResult s).value = s.value := rfl
@[simp] theorem clearResult_len (s : State) : (clearResult s).len = s.len := rfl
@[simp] theorem clearResult_buf (s : State) : (clearResult s).buf = s.buf := rfl
@[simp] theorem clearResult_done (s : State) : (clearResult s).done = false := rfl
@[simp] theorem clearResult_err (s : State) : (clearResult s).err = false := rfl
@[simp] theorem clearResult_ecode (s : State) : (clearResult s).ecode = 0 := rfl
@[simp] theorem clearResult_unterm (s : State) : (clearResult s).unterm = false := rfl
@[simp] theorem clearResult_trail (s : State) : (clearResult s).trail = false := rfl
@[simp] theorem clearResult_ovr (s : State) : (clearResult s).ovr = s.ovr := rfl
@[simp] theorem clearResult_opr (s : State) : (clearResult s).opr = s.opr := rfl
@[simp] theorem clearResult_acc (s : State) : (clearResult s).acc = s.acc := rfl
@[simp] theorem clearResult_idx (s : State) : (clearResult s).idx = s.idx := rfl
@[simp] theorem clearResult_wb (s : State) : (clearResult s).wb = s.wb := rfl
@[simp] theorem clearResult_rst (s : State) : (clearResult s).rst = s.rst := rfl
@[simp] theorem clearResult_pending (s : State) : (clearResult s).pending = s.pending := rfl
@[simp] theorem clearResult_received (s : State) : (clearResult s).received = s.received := rfl

-- overrun
@[simp] theorem overrun_value (s : State) : (overrun s).value = s.value := rfl
@[simp] theorem overrun_len (s : State) : (overrun s).len = s.len := rfl
@[simp] theorem overrun_buf (s : State) : (overrun s).buf = s.buf := rfl
@[simp] theorem overrun_done (s : State) : (overrun s).done = s.done := rfl
@[simp] theorem overrun_err (s : State) : (overrun s).err = s.err := rfl
@[simp] theorem overrun_ecode (s : State) : (overrun s).ecode = s.ecode := rfl
@[simp] theorem overrun_unterm (s : State) : (overrun s).unterm = s.unterm := rfl
@[simp] theorem overrun_trail (s : State) : (overrun s).trail = s.trail := rfl
@[simp] theorem overrun_ovr (s : State) : (overrun s).ovr = true := rfl
@[simp] theorem overrun_opr (s : State) : (overrun s).opr = s.opr := rfl
@[simp] theorem overrun_acc (s : State) : (overrun s).acc = s.acc := rfl
@[simp] theorem overrun_idx (s : State) : (overrun s).idx = s.idx := rfl
@[simp] theorem overrun_wb (s : State) : (overrun s).wb = s.wb := rfl
@[simp] theorem overrun_rst (s : State) : (overrun s).rst = s.rst := rfl
@[simp] theorem overrun_pending (s : State) : (overrun s).pending = s.pending := rfl
@[simp] theorem overrun_received (s : State) : (overrun s).received = s.received := rfl

-- accept
@[simp] theorem accept_value (op : Opr) (s : State) : (accept op s).value = s.value := rfl
@[simp] theorem accept_len (op : Opr) (s : State) : (accept op s).len = s.len := rfl
@[simp] theorem accept_buf (op : Opr) (s : State) : (accept op s).buf = s.buf := rfl
@[simp] theorem accept_done (op : Opr) (s : State) : (accept op s).done = false := rfl
@[simp] theorem accept_err (op : Opr) (s : State) : (accept op s).err = false := rfl
@[simp] theorem accept_ecode (op : Opr) (s : State) : (accept op s).ecode = 0 := rfl
@[simp] theorem accept_unterm (op : Opr) (s : State) : (accept op s).unterm = false := rfl
@[simp] theorem accept_trail (op : Opr) (s : State) : (accept op s).trail = false := rfl
@[simp] theorem accept_ovr (op : Opr) (s : State) : (accept op s).ovr = s.ovr := rfl
@[simp] theorem accept_opr (op : Opr) (s : State) : (accept op s).opr = op := rfl
@[simp] theorem accept_acc (op : Opr) (s : State) : (accept op s).acc = s.acc := rfl
@[simp] theorem accept_idx (op : Opr) (s : State) : (accept op s).idx = s.idx := rfl
@[simp] theorem accept_wb (op : Opr) (s : State) : (accept op s).wb = s.wb := rfl
@[simp] theorem accept_rst (op : Opr) (s : State) : (accept op s).rst = s.rst := rfl
@[simp] theorem accept_pending (op : Opr) (s : State) : (accept op s).pending = s.pending := rfl
@[simp] theorem accept_received (op : Opr) (s : State) : (accept op s).received = s.received := rfl

-- completeOk
@[simp] theorem completeOk_value (s : State) : (completeOk s).value = s.value := rfl
@[simp] theorem completeOk_len (s : State) : (completeOk s).len = s.len := rfl
@[simp] theorem completeOk_buf (s : State) : (completeOk s).buf = s.buf := rfl
@[simp] theorem completeOk_done (s : State) : (completeOk s).done = true := rfl
@[simp] theorem completeOk_err (s : State) : (completeOk s).err = s.err := rfl
@[simp] theorem completeOk_ecode (s : State) : (completeOk s).ecode = s.ecode := rfl
@[simp] theorem completeOk_unterm (s : State) : (completeOk s).unterm = s.unterm := rfl
@[simp] theorem completeOk_trail (s : State) : (completeOk s).trail = s.trail := rfl
@[simp] theorem completeOk_ovr (s : State) : (completeOk s).ovr = s.ovr := rfl
@[simp] theorem completeOk_opr (s : State) : (completeOk s).opr = .none := rfl
@[simp] theorem completeOk_acc (s : State) : (completeOk s).acc = s.acc := rfl
@[simp] theorem completeOk_idx (s : State) : (completeOk s).idx = s.idx := rfl
@[simp] theorem completeOk_wb (s : State) : (completeOk s).wb = s.wb := rfl
@[simp] theorem completeOk_rst (s : State) : (completeOk s).rst = s.rst := rfl
@[simp] theorem completeOk_pending (s : State) : (completeOk s).pending = s.pending := rfl
@[simp] theorem completeOk_received (s : State) : (completeOk s).received = s.received := rfl

-- completeError
@[simp] theorem completeError_value (c : ErrorCode) (s : State) : (completeError c s).value = s.value := rfl
@[simp] theorem completeError_len (c : ErrorCode) (s : State) : (completeError c s).len = s.len := rfl
@[simp] theorem completeError_buf (c : ErrorCode) (s : State) : (completeError c s).buf = s.buf := rfl
@[simp] theorem completeError_done (c : ErrorCode) (s : State) : (completeError c s).done = true := rfl
@[simp] theorem completeError_err (c : ErrorCode) (s : State) : (completeError c s).err = true := rfl
@[simp] theorem completeError_ecode (c : ErrorCode) (s : State) : (completeError c s).ecode = c.code := rfl
@[simp] theorem completeError_unterm (c : ErrorCode) (s : State) : (completeError c s).unterm = s.unterm := rfl
@[simp] theorem completeError_trail (c : ErrorCode) (s : State) : (completeError c s).trail = s.trail := rfl
@[simp] theorem completeError_ovr (c : ErrorCode) (s : State) : (completeError c s).ovr = s.ovr := rfl
@[simp] theorem completeError_opr (c : ErrorCode) (s : State) : (completeError c s).opr = .none := rfl
@[simp] theorem completeError_acc (c : ErrorCode) (s : State) : (completeError c s).acc = s.acc := rfl
@[simp] theorem completeError_idx (c : ErrorCode) (s : State) : (completeError c s).idx = s.idx := rfl
@[simp] theorem completeError_wb (c : ErrorCode) (s : State) : (completeError c s).wb = s.wb := rfl
@[simp] theorem completeError_rst (c : ErrorCode) (s : State) : (completeError c s).rst = s.rst := rfl
@[simp] theorem completeError_pending (c : ErrorCode) (s : State) : (completeError c s).pending = s.pending := rfl
@[simp] theorem completeError_received (c : ErrorCode) (s : State) : (completeError c s).received = s.received := rfl

-- badCommand
@[simp] theorem badCommand_value (s : State) : (badCommand s).value = s.value := rfl
@[simp] theorem badCommand_len (s : State) : (badCommand s).len = s.len := rfl
@[simp] theorem badCommand_buf (s : State) : (badCommand s).buf = s.buf := rfl
@[simp] theorem badCommand_done (s : State) : (badCommand s).done = true := rfl
@[simp] theorem badCommand_err (s : State) : (badCommand s).err = true := rfl
@[simp] theorem badCommand_ecode (s : State) : (badCommand s).ecode = 3 := rfl
@[simp] theorem badCommand_unterm (s : State) : (badCommand s).unterm = false := rfl
@[simp] theorem badCommand_trail (s : State) : (badCommand s).trail = false := rfl
@[simp] theorem badCommand_ovr (s : State) : (badCommand s).ovr = s.ovr := rfl
@[simp] theorem badCommand_opr (s : State) : (badCommand s).opr = .none := rfl
@[simp] theorem badCommand_acc (s : State) : (badCommand s).acc = s.acc := rfl
@[simp] theorem badCommand_idx (s : State) : (badCommand s).idx = s.idx := rfl
@[simp] theorem badCommand_wb (s : State) : (badCommand s).wb = s.wb := rfl
@[simp] theorem badCommand_rst (s : State) : (badCommand s).rst = s.rst := rfl
@[simp] theorem badCommand_pending (s : State) : (badCommand s).pending = s.pending := rfl
@[simp] theorem badCommand_received (s : State) : (badCommand s).received = s.received := rfl

-- acceptEncode
@[simp] theorem acceptEncode_value (s : State) : (acceptEncode s).value = s.value := rfl
@[simp] theorem acceptEncode_len (s : State) : (acceptEncode s).len = s.len := rfl
@[simp] theorem acceptEncode_buf (s : State) : (acceptEncode s).buf = s.buf := rfl
@[simp] theorem acceptEncode_done (s : State) : (acceptEncode s).done = false := rfl
@[simp] theorem acceptEncode_err (s : State) : (acceptEncode s).err = false := rfl
@[simp] theorem acceptEncode_ecode (s : State) : (acceptEncode s).ecode = 0 := rfl
@[simp] theorem acceptEncode_unterm (s : State) : (acceptEncode s).unterm = false := rfl
@[simp] theorem acceptEncode_trail (s : State) : (acceptEncode s).trail = false := rfl
@[simp] theorem acceptEncode_ovr (s : State) : (acceptEncode s).ovr = s.ovr := rfl
@[simp] theorem acceptEncode_opr (s : State) : (acceptEncode s).opr = .enc := rfl
@[simp] theorem acceptEncode_acc (s : State) : (acceptEncode s).acc = s.value := rfl
@[simp] theorem acceptEncode_idx (s : State) : (acceptEncode s).idx = 0 := rfl
@[simp] theorem acceptEncode_wb (s : State) : (acceptEncode s).wb = Bytes9.zero := rfl
@[simp] theorem acceptEncode_rst (s : State) : (acceptEncode s).rst = s.rst := rfl
@[simp] theorem acceptEncode_pending (s : State) : (acceptEncode s).pending = s.pending := rfl
@[simp] theorem acceptEncode_received (s : State) : (acceptEncode s).received = s.received := rfl

-- acceptDecode
@[simp] theorem acceptDecode_value (s : State) : (acceptDecode s).value = s.value := rfl
@[simp] theorem acceptDecode_len (s : State) : (acceptDecode s).len = s.len := rfl
@[simp] theorem acceptDecode_buf (s : State) : (acceptDecode s).buf = s.buf := rfl
@[simp] theorem acceptDecode_done (s : State) : (acceptDecode s).done = false := rfl
@[simp] theorem acceptDecode_err (s : State) : (acceptDecode s).err = false := rfl
@[simp] theorem acceptDecode_ecode (s : State) : (acceptDecode s).ecode = 0 := rfl
@[simp] theorem acceptDecode_unterm (s : State) : (acceptDecode s).unterm = false := rfl
@[simp] theorem acceptDecode_trail (s : State) : (acceptDecode s).trail = false := rfl
@[simp] theorem acceptDecode_ovr (s : State) : (acceptDecode s).ovr = s.ovr := rfl
@[simp] theorem acceptDecode_opr (s : State) : (acceptDecode s).opr = .dec := rfl
@[simp] theorem acceptDecode_acc (s : State) : (acceptDecode s).acc = 0 := rfl
@[simp] theorem acceptDecode_idx (s : State) : (acceptDecode s).idx = 0 := rfl
@[simp] theorem acceptDecode_wb (s : State) : (acceptDecode s).wb = s.wb := rfl
@[simp] theorem acceptDecode_rst (s : State) : (acceptDecode s).rst = s.rst := rfl
@[simp] theorem acceptDecode_pending (s : State) : (acceptDecode s).pending = s.pending := rfl
@[simp] theorem acceptDecode_received (s : State) : (acceptDecode s).received = s.received := rfl

-- finishEncode
@[simp] theorem finishEncode_value (k : Nat) (s : State) : (finishEncode k s).value = s.value := rfl
@[simp] theorem finishEncode_len (k : Nat) (s : State) : (finishEncode k s).len = BitVec.ofNat 32 k := rfl
@[simp] theorem finishEncode_buf (k : Nat) (s : State) : (finishEncode k s).buf = s.wb := rfl
@[simp] theorem finishEncode_done (k : Nat) (s : State) : (finishEncode k s).done = true := rfl
@[simp] theorem finishEncode_err (k : Nat) (s : State) : (finishEncode k s).err = s.err := rfl
@[simp] theorem finishEncode_ecode (k : Nat) (s : State) : (finishEncode k s).ecode = s.ecode := rfl
@[simp] theorem finishEncode_unterm (k : Nat) (s : State) : (finishEncode k s).unterm = s.unterm := rfl
@[simp] theorem finishEncode_trail (k : Nat) (s : State) : (finishEncode k s).trail = s.trail := rfl
@[simp] theorem finishEncode_ovr (k : Nat) (s : State) : (finishEncode k s).ovr = s.ovr := rfl
@[simp] theorem finishEncode_opr (k : Nat) (s : State) : (finishEncode k s).opr = .none := rfl
@[simp] theorem finishEncode_acc (k : Nat) (s : State) : (finishEncode k s).acc = s.acc := rfl
@[simp] theorem finishEncode_idx (k : Nat) (s : State) : (finishEncode k s).idx = s.idx := rfl
@[simp] theorem finishEncode_wb (k : Nat) (s : State) : (finishEncode k s).wb = s.wb := rfl
@[simp] theorem finishEncode_rst (k : Nat) (s : State) : (finishEncode k s).rst = s.rst := rfl
@[simp] theorem finishEncode_pending (k : Nat) (s : State) : (finishEncode k s).pending = s.pending := rfl
@[simp] theorem finishEncode_received (k : Nat) (s : State) : (finishEncode k s).received = s.received := rfl

-- resetBlock
@[simp] theorem resetBlock_value (s : State) : (resetBlock s).value = 0 := rfl
@[simp] theorem resetBlock_len (s : State) : (resetBlock s).len = 0 := rfl
@[simp] theorem resetBlock_buf (s : State) : (resetBlock s).buf = Bytes9.zero := rfl
@[simp] theorem resetBlock_done (s : State) : (resetBlock s).done = false := rfl
@[simp] theorem resetBlock_err (s : State) : (resetBlock s).err = false := rfl
@[simp] theorem resetBlock_ecode (s : State) : (resetBlock s).ecode = 0 := rfl
@[simp] theorem resetBlock_unterm (s : State) : (resetBlock s).unterm = false := rfl
@[simp] theorem resetBlock_trail (s : State) : (resetBlock s).trail = false := rfl
@[simp] theorem resetBlock_ovr (s : State) : (resetBlock s).ovr = false := rfl
@[simp] theorem resetBlock_opr (s : State) : (resetBlock s).opr = .none := rfl
@[simp] theorem resetBlock_acc (s : State) : (resetBlock s).acc = 0 := rfl
@[simp] theorem resetBlock_idx (s : State) : (resetBlock s).idx = 0 := rfl
@[simp] theorem resetBlock_wb (s : State) : (resetBlock s).wb = Bytes9.zero := rfl
@[simp] theorem resetBlock_rst (s : State) : (resetBlock s).rst = s.rst := rfl
@[simp] theorem resetBlock_pending (s : State) : (resetBlock s).pending = s.pending := rfl
@[simp] theorem resetBlock_received (s : State) : (resetBlock s).received = s.received := rfl

-- State.visible
@[simp] theorem State.visible_value (s : State) : (State.visible s).value = s.value := rfl
@[simp] theorem State.visible_len (s : State) : (State.visible s).len = s.len := rfl
@[simp] theorem State.visible_buf (s : State) : (State.visible s).buf = s.buf := rfl
@[simp] theorem State.visible_done (s : State) : (State.visible s).done = s.done := rfl
@[simp] theorem State.visible_err (s : State) : (State.visible s).err = s.err := rfl
@[simp] theorem State.visible_ecode (s : State) : (State.visible s).ecode = s.ecode := rfl
@[simp] theorem State.visible_unterm (s : State) : (State.visible s).unterm = s.unterm := rfl
@[simp] theorem State.visible_trail (s : State) : (State.visible s).trail = s.trail := rfl
@[simp] theorem State.visible_ovr (s : State) : (State.visible s).ovr = s.ovr := rfl
@[simp] theorem State.visible_opr (s : State) : (State.visible s).opr = s.opr := rfl
@[simp] theorem State.visible_acc (s : State) : (State.visible s).acc = 0 := rfl
@[simp] theorem State.visible_idx (s : State) : (State.visible s).idx = 0 := rfl
@[simp] theorem State.visible_wb (s : State) : (State.visible s).wb = Bytes9.zero := rfl
@[simp] theorem State.visible_rst (s : State) : (State.visible s).rst = s.rst := rfl
@[simp] theorem State.visible_pending (s : State) : (State.visible s).pending = s.pending := rfl
@[simp] theorem State.visible_received (s : State) : (State.visible s).received = s.received := rfl

-- writeStatus: every field but OVR
@[simp] theorem writeStatus_value (w : Word) (s : State) : (writeStatus w s).value = s.value := by
  unfold writeStatus; split <;> rfl
@[simp] theorem writeStatus_len (w : Word) (s : State) : (writeStatus w s).len = s.len := by
  unfold writeStatus; split <;> rfl
@[simp] theorem writeStatus_buf (w : Word) (s : State) : (writeStatus w s).buf = s.buf := by
  unfold writeStatus; split <;> rfl
@[simp] theorem writeStatus_done (w : Word) (s : State) : (writeStatus w s).done = s.done := by
  unfold writeStatus; split <;> rfl
@[simp] theorem writeStatus_err (w : Word) (s : State) : (writeStatus w s).err = s.err := by
  unfold writeStatus; split <;> rfl
@[simp] theorem writeStatus_ecode (w : Word) (s : State) : (writeStatus w s).ecode = s.ecode := by
  unfold writeStatus; split <;> rfl
@[simp] theorem writeStatus_unterm (w : Word) (s : State) : (writeStatus w s).unterm = s.unterm := by
  unfold writeStatus; split <;> rfl
@[simp] theorem writeStatus_trail (w : Word) (s : State) : (writeStatus w s).trail = s.trail := by
  unfold writeStatus; split <;> rfl
@[simp] theorem writeStatus_opr (w : Word) (s : State) : (writeStatus w s).opr = s.opr := by
  unfold writeStatus; split <;> rfl
@[simp] theorem writeStatus_acc (w : Word) (s : State) : (writeStatus w s).acc = s.acc := by
  unfold writeStatus; split <;> rfl
@[simp] theorem writeStatus_idx (w : Word) (s : State) : (writeStatus w s).idx = s.idx := by
  unfold writeStatus; split <;> rfl
@[simp] theorem writeStatus_wb (w : Word) (s : State) : (writeStatus w s).wb = s.wb := by
  unfold writeStatus; split <;> rfl
@[simp] theorem writeStatus_rst (w : Word) (s : State) : (writeStatus w s).rst = s.rst := by
  unfold writeStatus; split <;> rfl
@[simp] theorem writeStatus_pending (w : Word) (s : State) : (writeStatus w s).pending = s.pending := by
  unfold writeStatus; split <;> rfl
@[simp] theorem writeStatus_received (w : Word) (s : State) : (writeStatus w s).received = s.received := by
  unfold writeStatus; split <;> rfl
@[simp] theorem writeStatus_ovr (w : Word) (s : State) :
    (writeStatus w s).ovr = (s.ovr && !w.getLsbD 16) := by
  unfold writeStatus; split <;> simp_all

-- storeReg: every field but the data registers
@[simp] theorem storeReg_done (r : Reg) (w : Word) (s : State) : (storeReg r w s).done = s.done := by
  cases r <;> rfl
@[simp] theorem storeReg_err (r : Reg) (w : Word) (s : State) : (storeReg r w s).err = s.err := by
  cases r <;> rfl
@[simp] theorem storeReg_ecode (r : Reg) (w : Word) (s : State) : (storeReg r w s).ecode = s.ecode := by
  cases r <;> rfl
@[simp] theorem storeReg_unterm (r : Reg) (w : Word) (s : State) : (storeReg r w s).unterm = s.unterm := by
  cases r <;> rfl
@[simp] theorem storeReg_trail (r : Reg) (w : Word) (s : State) : (storeReg r w s).trail = s.trail := by
  cases r <;> rfl
@[simp] theorem storeReg_ovr (r : Reg) (w : Word) (s : State) : (storeReg r w s).ovr = s.ovr := by
  cases r <;> rfl
@[simp] theorem storeReg_opr (r : Reg) (w : Word) (s : State) : (storeReg r w s).opr = s.opr := by
  cases r <;> rfl
@[simp] theorem storeReg_acc (r : Reg) (w : Word) (s : State) : (storeReg r w s).acc = s.acc := by
  cases r <;> rfl
@[simp] theorem storeReg_idx (r : Reg) (w : Word) (s : State) : (storeReg r w s).idx = s.idx := by
  cases r <;> rfl
@[simp] theorem storeReg_wb (r : Reg) (w : Word) (s : State) : (storeReg r w s).wb = s.wb := by
  cases r <;> rfl
@[simp] theorem storeReg_rst (r : Reg) (w : Word) (s : State) : (storeReg r w s).rst = s.rst := by
  cases r <;> rfl
@[simp] theorem storeReg_pending (r : Reg) (w : Word) (s : State) : (storeReg r w s).pending = s.pending := by
  cases r <;> rfl
@[simp] theorem storeReg_received (r : Reg) (w : Word) (s : State) : (storeReg r w s).received = s.received := by
  cases r <;> rfl

-- overrun drops the write; writeReg leaves every field but the data registers and OVR
@[simp] theorem writeReg_done (r : Reg) (w : Word) (s : State) : (writeReg r w s).done = s.done := by
  cases r <;> simp [writeReg] <;> split <;> simp
@[simp] theorem writeReg_err (r : Reg) (w : Word) (s : State) : (writeReg r w s).err = s.err := by
  cases r <;> simp [writeReg] <;> split <;> simp
@[simp] theorem writeReg_ecode (r : Reg) (w : Word) (s : State) : (writeReg r w s).ecode = s.ecode := by
  cases r <;> simp [writeReg] <;> split <;> simp
@[simp] theorem writeReg_unterm (r : Reg) (w : Word) (s : State) : (writeReg r w s).unterm = s.unterm := by
  cases r <;> simp [writeReg] <;> split <;> simp
@[simp] theorem writeReg_trail (r : Reg) (w : Word) (s : State) : (writeReg r w s).trail = s.trail := by
  cases r <;> simp [writeReg] <;> split <;> simp
@[simp] theorem writeReg_opr (r : Reg) (w : Word) (s : State) : (writeReg r w s).opr = s.opr := by
  cases r <;> simp [writeReg] <;> split <;> simp
@[simp] theorem writeReg_acc (r : Reg) (w : Word) (s : State) : (writeReg r w s).acc = s.acc := by
  cases r <;> simp [writeReg] <;> split <;> simp
@[simp] theorem writeReg_idx (r : Reg) (w : Word) (s : State) : (writeReg r w s).idx = s.idx := by
  cases r <;> simp [writeReg] <;> split <;> simp
@[simp] theorem writeReg_wb (r : Reg) (w : Word) (s : State) : (writeReg r w s).wb = s.wb := by
  cases r <;> simp [writeReg] <;> split <;> simp
@[simp] theorem writeReg_rst (r : Reg) (w : Word) (s : State) : (writeReg r w s).rst = s.rst := by
  cases r <;> simp [writeReg] <;> split <;> simp
@[simp] theorem writeReg_pending (r : Reg) (w : Word) (s : State) : (writeReg r w s).pending = s.pending := by
  cases r <;> simp [writeReg] <;> split <;> simp
@[simp] theorem writeReg_received (r : Reg) (w : Word) (s : State) : (writeReg r w s).received = s.received := by
  cases r <;> simp [writeReg] <;> split <;> simp

end Sys2Proof.Machine
end

