-- ==== Sys2Proof/Laws/Operands.lean ====
section
/-! SUPPORT. Laws of the codec's operands: bytes and their two fields, the parts of a nine-byte buffer, and the accumulator. -/

namespace Sys2Proof.Machine

-- ==== One byte ====

@[simp] theorem continues_mkByte (more : Bool) (c : BitVec 7) : continues (mkByte more c) = more := by
  cases more <;> simp [continues, mkByte]

@[simp] theorem chunkBits_mkByte (more : Bool) (c : BitVec 7) : chunkBits (mkByte more c) = c := by
  revert more c; decide

/-- A byte is its continuation bit and its chunk. -/
theorem mkByte_eta (b : Byte) : mkByte (continues b) (chunkBits b) = b := by
  revert b; decide +revert

theorem mkByte_false (c : BitVec 7) : mkByte false c = c.setWidth 8 := by simp [mkByte]

-- ==== Nine bytes ====

theorem byteAt_lt (b : Bytes9) {k : Nat} (h : k < 9) : byteAt b k = b[k] := by
  simp [byteAt, Vector.getD, h]

theorem byteAt_ge (b : Bytes9) {k : Nat} (h : 9 ≤ k) : byteAt b k = 0x00 := by
  simp [byteAt, Vector.getD, show ¬k < 9 by omega]

/-- Two buffers with the same nine bytes are one. -/
theorem bytes9_ext {b c : Bytes9} (h : ∀ k < 9, byteAt b k = byteAt c k) : b = c := by
  apply Vector.ext
  intro i hi
  simpa [byteAt_lt, hi] using h i hi

theorem byteAt_set (b : Bytes9) (i k : Nat) (x : Byte) (hi : i < 9) :
    byteAt (b.set i x hi) k = if k = i then x else byteAt b k := by
  by_cases hk : k < 9
  · simp [byteAt_lt, hk, Vector.getElem_set, eq_comm]
  · simp [byteAt_ge, show 9 ≤ k by omega, show k ≠ i by omega]

@[simp] theorem byteAt_zero (k : Nat) : byteAt Bytes9.zero k = 0x00 := by
  by_cases hk : k < 9
  · interval_cases k <;> rfl
  · exact byteAt_ge _ (by omega)

theorem byteAt_encBuf (n : Wide) {k : Nat} (h : k < 9) :
    byteAt (encBuf n) k = if k < nb n.toNat then encByte n k else 0x00 := by
  simp [byteAt_lt, h, encBuf]

theorem byteAt_padded (l : List Byte) {k : Nat} (h : k < 9) : byteAt (padded l) k = l.getD k 0x00 := by
  simp [byteAt_lt, h, padded]

-- ==== The accumulator ====

theorem placeChunk_toNat (b : Byte) {k : Nat} (h : k ≤ 8) :
    (placeChunk b k).toNat = (chunkBits b).toNat * 2 ^ (7 * k) := by
  have h1 : (chunkBits b).toNat < 2 ^ 7 := (chunkBits b).isLt
  have h2 : 2 ^ (7 * k) ≤ 2 ^ 56 := Nat.pow_le_pow_right (by decide) (by omega)
  simp only [placeChunk, BitVec.toNat_shiftLeft, BitVec.toNat_setWidth, Nat.shiftLeft_eq]
  rw [Nat.mod_eq_of_lt (a := (chunkBits b).toNat) (by omega), Nat.mod_eq_of_lt]
  calc (chunkBits b).toNat * 2 ^ (7 * k) < 2 ^ 7 * 2 ^ 56 :=
        Nat.mul_lt_mul_of_lt_of_le h1 h2 (by positivity)
    _ ≤ 2 ^ 128 := by norm_num

/-- The sum of the first t chunks, as a number, stays below 2^(7t) (42_decode.md R111). -/
theorem chunkSum_lt (b : Bytes9) : ∀ {t : Nat}, t ≤ 9 → (chunkSum b t).toNat < 2 ^ (7 * t)
  | 0, _ => by simp [chunkSum]
  | t + 1, h => by
    have ih := chunkSum_lt b (t := t) (by omega)
    have h1 : (chunkBits (byteAt b t)).toNat < 2 ^ 7 := (chunkBits (byteAt b t)).isLt
    have h3 : 2 ^ (7 * (t + 1)) = 2 ^ (7 * t) * 2 ^ 7 := by rw [Nat.mul_succ, Nat.pow_add]
    have h2 : 2 ^ (7 * (t + 1)) ≤ 2 ^ 63 := Nat.pow_le_pow_right (by decide) (by omega)
    have h4 : (chunkBits (byteAt b t)).toNat * 2 ^ (7 * t) ≤ (2 ^ 7 - 1) * 2 ^ (7 * t) :=
      Nat.mul_le_mul_right _ (by omega)
    rw [chunkSum, BitVec.toNat_add, placeChunk_toNat _ (by omega), Nat.mod_eq_of_lt] <;>
      (generalize 2 ^ (7 * t) = p at *; omega)

theorem chunkSum_succ_toNat (b : Bytes9) {t : Nat} (h : t < 9) :
    (chunkSum b (t + 1)).toNat = (chunkSum b t).toNat + (chunkBits (byteAt b t)).toNat * 2 ^ (7 * t) := by
  have ih := chunkSum_lt b (t := t) (by omega)
  have h1 : (chunkBits (byteAt b t)).toNat < 2 ^ 7 := (chunkBits (byteAt b t)).isLt
  have h2 : 2 ^ (7 * t) ≤ 2 ^ 56 := Nat.pow_le_pow_right (by decide) (by omega)
  have h4 : (chunkBits (byteAt b t)).toNat * 2 ^ (7 * t) ≤ (2 ^ 7 - 1) * 2 ^ 56 := Nat.mul_le_mul (by omega) h2
  rw [chunkSum, BitVec.toNat_add, placeChunk_toNat _ (by omega), Nat.mod_eq_of_lt (by omega)]

/-- ORing the next chunk into the accumulator adds it: the bits are disjoint (42_decode.md R101, R105). -/
theorem chunkSum_or_placeChunk (b : Bytes9) {t : Nat} (h : t < 9) :
    chunkSum b t ||| placeChunk (byteAt b t) t = chunkSum b (t + 1) := by
  apply BitVec.eq_of_toNat_eq
  rw [BitVec.toNat_or, chunkSum_succ_toNat b h, placeChunk_toNat _ (by omega), Nat.lor_comm, Nat.mul_comm,
    ← Nat.two_pow_add_eq_or_of_lt (chunkSum_lt b (by omega)), Nat.add_comm]

/-- The sum depends on the first t bytes only. -/
theorem chunkSum_congr {b c : Bytes9} : ∀ {t : Nat}, (∀ j < t, byteAt b j = byteAt c j) → chunkSum b t = chunkSum c t
  | 0, _ => rfl
  | t + 1, h => by
    rw [chunkSum, chunkSum, chunkSum_congr (fun j hj => h j (by omega)), h t (by omega)]

-- ==== The terminator ====

theorem terminator_some_iff (b : Bytes9) (l t : Nat) :
    terminator b l = some t ↔
      t < l ∧ continues (byteAt b t) = false ∧ ∀ j < t, continues (byteAt b j) = true := by
  simp [terminator, List.find?_range_eq_some, and_left_comm]

theorem terminator_none_iff (b : Bytes9) (l : Nat) :
    terminator b l = none ↔ ∀ j < l, continues (byteAt b j) = true := by
  simp [terminator, List.find?_eq_none]

end Sys2Proof.Machine
end

