-- ==== Sys2Proof/Laws/Ops.lean ====
section
/-! SUPPORT. What each shared operation can do, said once: commands, micro-steps, bus accesses and events. -/

namespace Sys2Proof.Machine

theorem busy_iff (s : State) : s.busy = true ↔ s.opr ≠ .none := by simp

-- ==== Commands ====

theorem onCommand_idle (f : State → State) {s : State} (h : s.opr = .none) : onCommand f s = .next (f s) := by
  simp [onCommand, h]

theorem onCommand_busy (f : State → State) {s : State} (h : s.opr ≠ .none) : onCommand f s = .next (overrun s) := by
  simp [onCommand, h]

/-- What a command does to an idle block. -/
def commandEffect : Instr → State → State
  | .nop _ => id
  | .encode _ => acceptEncode
  | .decode _ => acceptDecode
  | .reserved _ => badCommand

theorem exec_eq_onCommand (i : Instr) (s : State) : exec i s = onCommand (commandEffect i) s := by
  cases i <;> rfl

/-- Everything exec can do. -/
theorem exec_cases {i : Instr} {s : State} {o : Outcome} (h : exec i s = o) :
    (s.opr ≠ .none ∧ o = .next (overrun s)) ∨ (s.opr = .none ∧ o = .next (commandEffect i s)) := by
  subst h
  rw [exec_eq_onCommand]
  by_cases hb : s.opr = .none
  · exact .inr ⟨hb, onCommand_idle _ hb⟩
  · exact .inl ⟨hb, onCommand_busy _ hb⟩

-- ==== Micro-steps ====

/-- The state after one emitted byte (41_encode.md R89). -/
def emitByte (s : State) (last : Bool) (h : s.idx.toNat < 9) : State :=
  { s with
    wb := s.wb.set s.idx.toNat (mkByte (!last) (s.acc.extractLsb' 0 7)) h
    acc := s.acc >>> 7
    idx := s.idx + 1 }

/-- Everything an ENCODE micro-step can do (41_encode.md R88 to R90). -/
theorem encodeStep_cases {s : State} {o : Outcome} (ho : encodeStep s = o) :
    (nb s.value.toNat > 9 ∧ o = .next (completeError .encOutOfRange s)) ∨
    (∃ h : s.idx.toNat < 9, nb s.value.toNat ≤ 9 ∧ s.idx.toNat + 1 = nb s.value.toNat ∧
      o = .next (finishEncode (nb s.value.toNat) (emitByte s true h))) ∨
    (∃ h : s.idx.toNat < 9, nb s.value.toNat ≤ 9 ∧ s.idx.toNat + 1 ≠ nb s.value.toNat ∧
      o = .next (emitByte s false h)) ∨
    (nb s.value.toNat ≤ 9 ∧ 9 ≤ s.idx.toNat ∧ o = .fault .idxOutOfRange) := by
  subst ho
  unfold encodeStep
  by_cases hk : nb s.value.toNat > 9
  · simp [hk]
  by_cases hi : s.idx.toNat < 9
  · by_cases hl : s.idx.toNat + 1 = nb s.value.toNat
    · exact .inr (.inl ⟨hi, by omega, hl, by simp [hk, hi, hl, emitByte]⟩)
    · exact .inr (.inr (.inl ⟨hi, by omega, hl, by simp [hk, hi, hl, emitByte]⟩))
  · exact .inr (.inr (.inr ⟨by omega, by omega, by simp [hk, hi]⟩))

/-- Everything a DECODE micro-step can do (42_decode.md R103 to R107). -/
theorem decodeStep_cases {s : State} {o : Outcome} (ho : decodeStep s = o) :
    (s.len.toNat > 9 ∧ o = .next (completeError .decOutOfRange s)) ∨
    (s.len.toNat ≤ 9 ∧ s.idx.toNat = s.len.toNat ∧ o = .next (completeOk { s with value := 0, unterm := true })) ∨
    (s.len.toNat ≤ 9 ∧ s.idx.toNat < s.len.toNat ∧ continues (byteAt s.buf s.idx.toNat) = false ∧
      o = .next (completeOk { s with
        acc := s.acc ||| placeChunk (byteAt s.buf s.idx.toNat) s.idx.toNat
        value := s.acc ||| placeChunk (byteAt s.buf s.idx.toNat) s.idx.toNat
        trail := decide (s.idx.toNat + 1 < s.len.toNat) })) ∨
    (s.len.toNat ≤ 9 ∧ s.idx.toNat < s.len.toNat ∧ continues (byteAt s.buf s.idx.toNat) = true ∧
      o = .next { s with
        acc := s.acc ||| placeChunk (byteAt s.buf s.idx.toNat) s.idx.toNat
        idx := s.idx + 1 }) ∨
    (s.len.toNat ≤ 9 ∧ s.len.toNat < s.idx.toNat ∧ o = .fault .idxOutOfRange) := by
  subst ho
  unfold decodeStep
  rcases Nat.lt_trichotomy s.idx.toNat s.len.toNat with hlt | heq | hgt <;>
    by_cases hl : s.len.toNat > 9
  · exact .inl ⟨hl, by simp [hl]⟩
  · have hne := Nat.ne_of_lt hlt
    cases hc : continues (byteAt s.buf s.idx.toNat) <;> simp [hl, hlt, hne, hc] <;> omega
  · exact .inl ⟨hl, by simp [hl]⟩
  · exact .inr (.inl ⟨by omega, heq, by simp [hl, heq]⟩)
  · exact .inl ⟨hl, by simp [hl]⟩
  · exact .inr (.inr (.inr (.inr ⟨by omega, hgt, by simp [hl, Nat.ne_of_gt hgt, Nat.not_lt_of_gt hgt]⟩)))

/-- Which step a tick is (40_commands.md R80). -/
theorem tick_cases {s : State} {o : Outcome} (ho : tick s = o) :
    ((s.rst = true ∨ s.opr = .none) ∧ o = .next s) ∨
    (s.rst = false ∧ s.opr = .enc ∧ encodeStep s = o) ∨
    (s.rst = false ∧ s.opr = .dec ∧ decodeStep s = o) := by
  subst ho
  unfold tick
  cases hr : s.rst <;> cases hop : s.opr <;> simp

theorem ticks_succ_next {s t : State} (n : Nat) (h : tick s = .next t) : ticks (n + 1) s = ticks n t := by
  simp [ticks, h]

/-- n datapath steps and then m more are n + m. -/
theorem ticks_add {s t : State} (m : Nat) : ∀ (n : Nat), ticks n s = .next t → ticks (n + m) s = ticks m t := by
  intro n
  induction n generalizing s with
  | zero => intro h; simp only [ticks, Host.Outcome.next.injEq] at h; simp [h]
  | succ n ih =>
    intro h
    rw [Nat.succ_add]
    simp only [ticks] at h ⊢
    split at h <;> simp_all

-- ==== Bus ====

theorem busRead_eq (off : BitVec 6) (s : State) :
    busRead off 4 s =
      .next { s with received := readWord (if s.rst then State.reset else s) (wordOffset off) :: s.received } := rfl

/-- Everything a write of 4 bytes can do (20_memory.md R46, R47, 70_reset_and_hazards.md R142). -/
theorem busWrite_cases {off : BitVec 6} {w : Word} {s : State} {o : Outcome} (ho : busWrite off 4 w s = o) :
    (s.rst = true ∧ o = .next s) ∨
    (s.rst = false ∧ regAt (wordOffset off) = none ∧ o = .next s) ∨
    (s.rst = false ∧ regAt (wordOffset off) = some .cmd ∧ exec (decodeWord w) s = o) ∨
    (s.rst = false ∧ ∃ r, regAt (wordOffset off) = some r ∧ r ≠ .cmd ∧ o = .next (writeReg r w s)) := by
  subst ho
  unfold busWrite
  cases hr : s.rst
  · cases hg : regAt (wordOffset off) with
    | none => simp
    | some r => cases r <;> simp
  · simp

/-- Everything an event can do. -/
theorem runEvent_cases {e : Event} {s : State} {o : Outcome} (ho : runEvent e s = o) :
    (e = .tick ∧ tick s = o) ∨
    (∃ off, e = .read off 4 ∧ busRead off 4 s = o) ∨
    (∃ off w, e = .write off 4 w ∧ busWrite off 4 w s = o) ∨
    (e = .reset ∧ o = .next { resetBlock s with rst := false }) ∨
    (e = .setRst true ∧ o = .next { resetBlock s with rst := true }) ∨
    (e = .setRst false ∧ o = .next { s with rst := false }) ∨
    (∃ off size, size ≠ 4 ∧ o = .refused (.accessWidth size) ∧
      (e = .read off size ∨ ∃ w, e = .write off size w)) := by
  subst ho
  cases e with
  | tick => simp [runEvent]
  | reset => simp [runEvent]
  | setRst l => cases l <;> simp [runEvent]
  | read off size =>
    by_cases h : size = 4
    · subst h; simp [runEvent]
    · simp [runEvent, busRead, h]
  | write off size w =>
    by_cases h : size = 4
    · subst h; simp [runEvent]
    · simp [runEvent, busWrite, h]

theorem step_nil {s : State} (h : s.pending = []) : step s = tick s := by simp [step, h]

theorem step_cons {s : State} {e : Event} {rest : List Event} (h : s.pending = e :: rest) :
    step s = runEvent e { s with pending := rest } := by simp [step, h]

/-- The command word that withFetchWord places is what the next step runs. -/
theorem step_withFetchWord (s : State) (w : Nat) :
    step (s.withFetchWord 32 w) = exec (decodeWord (BitVec.ofNat 32 (w % 2 ^ 32))) { s with rst := false } := rfl

end Sys2Proof.Machine
end

