-- ==== Sys2Proof/Laws/Micro.lean ====
section
/-! SUPPORT. What one micro-step does to a command in flight, in terms of EncodeInv and DecodeInv, and how completions chain. -/

namespace Sys2Proof.Machine

theorem idx_succ {x : BitVec 4} (h : x.toNat < 9) : (x + 1).toNat = x.toNat + 1 := by
  rw [BitVec.toNat_add]; simp; omega

/-- The shifter's low seven bits after k shifts are chunk k (41_encode.md R96). -/
theorem shiftRight_chunk (v : Wide) (k : Nat) : (v >>> (7 * k)).extractLsb' 0 7 = chunkOf v k := by
  apply BitVec.eq_of_getLsbD_eq
  intro i hi
  simp [chunkOf, hi]

-- ==== ENCODE ====

theorem tick_encode_mid {s : State} (hr : s.rst = false) (ho : s.opr = .enc) (hi : EncodeInv s)
    (h9 : nb s.value.toNat ≤ 9) (h : s.idx.toNat + 1 < nb s.value.toNat) :
    ∃ t, tick s = .next t ∧ t.visible = s.visible ∧ EncodeInv t ∧ t.opr = .enc ∧ t.idx.toNat = s.idx.toNat + 1 := by
  have h8 : s.idx.toNat < 9 := by omega
  refine ⟨emitByte s false h8, ?_, rfl, ⟨?_, ?_, ?_, ?_⟩, ho, idx_succ h8⟩
  · simp [tick, hr, ho, encodeStep, emitByte, h8, show ¬nb s.value.toNat > 9 by omega,
      show ¬s.idx.toNat + 1 = nb s.value.toNat by omega]
  · simp only [emitByte, idx_succ h8]; omega
  · intro hh; simp only [emitByte] at hh; omega
  · simp only [emitByte, idx_succ h8, hi.acc_eq, Nat.mul_succ, BitVec.shiftRight_add]
  · intro j hj
    simp only [emitByte, idx_succ h8, byteAt_set, hi.wb_eq j hj]
    by_cases e : j = s.idx.toNat
    · subst e; simp [encByte, hi.acc_eq, shiftRight_chunk, h]
    · by_cases h' : j < s.idx.toNat
      · simp [e, h', show j < s.idx.toNat + 1 by omega]
      · simp [e, h', show ¬j < s.idx.toNat + 1 by omega]

theorem tick_encode_last {s : State} (hr : s.rst = false) (ho : s.opr = .enc) (hi : EncodeInv s)
    (h9 : nb s.value.toNat ≤ 9) (h : s.idx.toNat + 1 = nb s.value.toNat) :
    ∃ t, tick s = .next t ∧
      t.visible = (completeOk { s with buf := encBuf s.value, len := BitVec.ofNat 32 (nb s.value.toNat) }).visible ∧
      t.idx.toNat = nb s.value.toNat := by
  have h8 : s.idx.toNat < 9 := by omega
  refine ⟨finishEncode (nb s.value.toNat) (emitByte s true h8), ?_, ?_, ?_⟩
  · simp [tick, hr, ho, encodeStep, emitByte, h8, show ¬nb s.value.toNat > 9 by omega, h]
  · have hwb : (emitByte s true h8).wb = encBuf s.value := by
      apply bytes9_ext
      intro j hj
      rw [byteAt_encBuf _ hj]
      simp only [emitByte, byteAt_set, hi.wb_eq j hj]
      by_cases e : j = s.idx.toNat
      · subst e
        simp [encByte, hi.acc_eq, shiftRight_chunk, show ¬s.idx.toNat + 1 < nb s.value.toNat by omega,
          show s.idx.toNat < nb s.value.toNat by omega]
      · by_cases h' : j < s.idx.toNat
        · simp [e, h', show j < nb s.value.toNat by omega]
        · simp [e, h', show ¬j < nb s.value.toNat by omega]
    simp only [finishEncode, hwb]; rfl
  · have := idx_succ h8; simp only [finishEncode_idx, emitByte, this, h]

theorem tick_encode_out {s : State} (hr : s.rst = false) (ho : s.opr = .enc) (h9 : nb s.value.toNat > 9) :
    tick s = .next (completeError .encOutOfRange s) := by
  simp [tick, hr, ho, encodeStep, h9]

-- ==== DECODE ====

theorem tick_decode_mid {s : State} (hr : s.rst = false) (ho : s.opr = .dec) (hi : DecodeInv s) (hl : s.len.toNat ≤ 9)
    (h : s.idx.toNat < s.len.toNat) (hc : continues (byteAt s.buf s.idx.toNat) = true) :
    ∃ t, tick s = .next t ∧ t.visible = s.visible ∧ DecodeInv t ∧ t.opr = .dec ∧ t.idx.toNat = s.idx.toNat + 1 := by
  have h8 : s.idx.toNat < 9 := by omega
  refine ⟨{ s with acc := s.acc ||| placeChunk (byteAt s.buf s.idx.toNat) s.idx.toNat, idx := s.idx + 1 }, ?_, rfl,
    ⟨?_, ?_, ?_, ?_⟩, ho, idx_succ h8⟩
  · simp [tick, hr, ho, decodeStep, show ¬s.len.toNat > 9 by omega, show s.idx.toNat ≠ s.len.toNat by omega, h, hc]
  · simp only [idx_succ h8]; omega
  · intro hh; simp only at hh; omega
  · simp only [idx_succ h8]
    intro j hj
    by_cases e : j = s.idx.toNat
    · subst e; exact hc
    · exact hi.scanned j (by omega)
  · simp only [idx_succ h8, hi.acc_eq, chunkSum_or_placeChunk _ h8]

theorem tick_decode_terminator {s : State} (hr : s.rst = false) (ho : s.opr = .dec) (hi : DecodeInv s)
    (hl : s.len.toNat ≤ 9) (h : s.idx.toNat < s.len.toNat) (hc : continues (byteAt s.buf s.idx.toNat) = false) :
    ∃ t, tick s = .next t ∧ t.idx = s.idx ∧
      t.visible = (completeOk { s with
        value := chunkSum s.buf (s.idx.toNat + 1), trail := decide (s.idx.toNat + 1 < s.len.toNat) }).visible := by
  have h8 : s.idx.toNat < 9 := by omega
  refine ⟨completeOk { s with
    acc := s.acc ||| placeChunk (byteAt s.buf s.idx.toNat) s.idx.toNat
    value := s.acc ||| placeChunk (byteAt s.buf s.idx.toNat) s.idx.toNat
    trail := decide (s.idx.toNat + 1 < s.len.toNat) }, ?_, rfl, ?_⟩
  · simp [tick, hr, ho, decodeStep, show ¬s.len.toNat > 9 by omega, show s.idx.toNat ≠ s.len.toNat by omega, h, hc]
  · rw [hi.acc_eq, chunkSum_or_placeChunk _ h8]; rfl

theorem tick_decode_end {s : State} (hr : s.rst = false) (ho : s.opr = .dec) (hl : s.len.toNat ≤ 9)
    (h : s.idx.toNat = s.len.toNat) : tick s = .next (completeOk { s with value := 0, unterm := true }) := by
  simp [tick, hr, ho, decodeStep, show ¬s.len.toNat > 9 by omega, h]

theorem tick_decode_out {s : State} (hr : s.rst = false) (ho : s.opr = .dec) (hl : s.len.toNat > 9) :
    tick s = .next (completeError .decOutOfRange s) := by
  simp [tick, hr, ho, decodeStep, hl]

-- ==== Chains of micro-steps ====

theorem completesAfter_one {s t : State} (hb : s.opr ≠ .none) (h : tick s = .next t) (ho : t.opr = .none) :
    CompletesAfter 1 s t := by
  refine ⟨fun j hj => ?_, by simp [ticks, h], ho⟩
  obtain rfl : j = 0 := by omega
  exact ⟨s, rfl, hb⟩

theorem completesAfter_succ {s u t : State} {n : Nat} (hb : s.opr ≠ .none) (h : tick s = .next u)
    (c : CompletesAfter n u t) : CompletesAfter (n + 1) s t := by
  obtain ⟨c1, c2, c3⟩ := c
  refine ⟨fun j hj => ?_, by rw [ticks_succ_next _ h]; exact c2, c3⟩
  cases j with
  | zero => exact ⟨s, rfl, hb⟩
  | succ j => rw [ticks_succ_next _ h]; exact c1 j (by omega)

/-- States equal to the host differ in ACC, IDX and WB at most. -/
theorem visible_eq_form {s u : State} (h : u.visible = s.visible) :
    ∃ a i w, u = { s with acc := a, idx := i, wb := w } := by
  refine ⟨u.acc, u.idx, u.wb, ?_⟩
  cases u; cases s; simp_all [State.visible]

end Sys2Proof.Machine
end

