-- ==== Sys2Proof/Laws/PerInstr.lean ====
section
/-! SUPPORT. Statements for all instructions, one lemma per constructor. -/

namespace Sys2Proof.Laws.TableRow

/-- The word an instruction encodes to lies in its own row of spec/opcode_table.json and in no other. -/
def Statement (i : Instr) : Prop :=
  ∀ r ∈ opcodeTable, r.covers (encode i) = true ↔ r.mnemonic = i.mnemonic

/-- The opcode bits of an encoded word are the instruction's (30_encoding.md R61). -/
theorem encode_and_mask (i : Instr) : encode i &&& 3#32 = i.op.setWidth 32 := by
  have h3 : 3#32 = 0#30 ++ 3#2 := by decide
  rw [encode, h3, BitVec.and_append]
  cases i <;> simp [Instr.op]

theorem nop (r : BitVec 30) : Statement (.nop r) := by
  simp [Statement, opcodeTable, OpcodeRow.covers, encode_and_mask, Instr.op, Instr.mnemonic]

theorem encode (r : BitVec 30) : Statement (.encode r) := by
  simp [Statement, opcodeTable, OpcodeRow.covers, encode_and_mask, Instr.op, Instr.mnemonic]

theorem decode (r : BitVec 30) : Statement (.decode r) := by
  simp [Statement, opcodeTable, OpcodeRow.covers, encode_and_mask, Instr.op, Instr.mnemonic]

theorem reserved (r : BitVec 30) : Statement (.reserved r) := by
  simp [Statement, opcodeTable, OpcodeRow.covers, encode_and_mask, Instr.op, Instr.mnemonic]

end Sys2Proof.Laws.TableRow
end

