-- ==== Sys2Proof/Laws/Words.lean ====
section
/-! SUPPORT. The words of the block bit by bit: the command word, the byte order of a word, and the registers' read words. -/

namespace Sys2Proof

/-- Bits of a concatenation whose width is written as a numeral. -/
theorem getLsbD_append_as {a b n : Nat} (x : BitVec a) (y : BitVec b) (i : Nat) (h : a + b = n) :
    (BitVec.cast h (x ++ y)).getLsbD i = if i < b then y.getLsbD i else x.getLsbD (i - b) := by
  simp [BitVec.getLsbD_append]

theorem encode_getLsbD (i : Instr) (j : Nat) :
    (encode i).getLsbD j = if j < 2 then i.op.getLsbD j else i.rsv.getLsbD (j - 2) :=
  getLsbD_append_as i.rsv i.op j rfl

/-- A word made of four bytes, highest first. -/
theorem getLsbD_fourBytes (b3 b2 b1 b0 : Byte) (j : Nat) :
    BitVec.getLsbD (w := 32) (b3 ++ b2 ++ b1 ++ b0) j =
      if j < 8 then b0.getLsbD j else if j < 16 then b1.getLsbD (j - 8)
      else if j < 24 then b2.getLsbD (j - 16) else b3.getLsbD (j - 24) := by
  have h : BitVec.getLsbD (w := 32) (b3 ++ b2 ++ b1 ++ b0) j =
      BitVec.getLsbD (w := 8 + 8 + 8 + 8) (b3 ++ b2 ++ b1 ++ b0) j := rfl
  rw [h]
  simp only [BitVec.getLsbD_append]
  by_cases h1 : j < 8
  · simp [h1]
  by_cases h2 : j < 16
  · simp [h1, h2, show j - 8 < 8 by omega]
  by_cases h3 : j < 24
  · simp [h1, h2, h3, show ¬(j - 8 < 8) by omega, show j - 16 < 8 by omega, show j - 8 - 8 = j - 16 by omega]
  · simp [h1, h2, h3, show ¬(j - 8 < 8) by omega, show ¬(j - 8 - 8 < 8) by omega,
      show j - 8 - 8 - 8 = j - 24 by omega]

/-- Four bytes of a word, put together again, are the word. -/
theorem fourBytes_of_word (w : Word) :
    w.extractLsb' 24 8 ++ w.extractLsb' 16 8 ++ w.extractLsb' 8 8 ++ w.extractLsb' 0 8 = w := by
  apply BitVec.eq_of_getLsbD_eq
  intro j hj
  refine (getLsbD_fourBytes _ _ _ _ j).trans ?_
  have hj' : j < 32 := hj
  by_cases h1 : j < 8
  · simp [h1]
  by_cases h2 : j < 16
  · simp [h1, h2, show j - 8 < 8 by omega, show 8 + (j - 8) = j by omega]
  by_cases h3 : j < 24
  · simp [h1, h2, h3, show j - 16 < 8 by omega, show 16 + (j - 16) = j by omega]
  · simp [h1, h2, h3, show j - 24 < 8 by omega, show 24 + (j - 24) = j by omega]

theorem decodeBytes_wordBytes (w : Word) : decodeBytes (wordBytes w) = .ok (decodeWord w) := by
  simp only [decodeBytes, wordBytes]
  rw [fourBytes_of_word]

namespace Machine

/-- Each bit of the STATUS word (10_state.md R19). -/
theorem statusWord_getLsbD (s : State) (i : Nat) :
    (statusWord s).getLsbD i =
      if i = 0 then s.busy else if i = 1 then s.done else if i = 2 then s.err
      else if 4 ≤ i ∧ i < 8 then s.ecode.getLsbD (i - 4) else if i = 8 then s.unterm else if i = 9 then s.trail
      else if i = 16 then s.ovr else false := by
  have h : (statusWord s).getLsbD i =
      BitVec.getLsbD (w := 15 + 1 + 6 + 1 + 1 + 4 + 1 + 1 + 1 + 1) (0#15 ++ BitVec.ofBool s.ovr ++ 0#6 ++ BitVec.ofBool s.trail ++ BitVec.ofBool s.unterm ++
        s.ecode ++ 0#1 ++ BitVec.ofBool s.err ++ BitVec.ofBool s.done ++ BitVec.ofBool s.busy) i := rfl
  rw [h]
  by_cases hi : i < 32
  · simp only [BitVec.getLsbD_append, BitVec.getLsbD_zero, BitVec.getLsbD_ofBool]
    interval_cases i <;> simp
  · rw [BitVec.getLsbD_of_ge _ _ (by omega)]
    simp [show i ≠ 0 by omega, show i ≠ 1 by omega, show i ≠ 2 by omega, show ¬(i < 8) by omega, show i ≠ 8 by omega,
      show i ≠ 9 by omega, show i ≠ 16 by omega]

/-- Each bit of VALUE after one of its words is replaced (10_state.md R25). -/
theorem setValueWord_getLsbD (v : Wide) (k : Fin 4) (w : Word) (i : Nat) (hi : i < 128) :
    (setValueWord v k w).getLsbD i =
      if 32 * k.val ≤ i ∧ i < 32 * k.val + 32 then w.getLsbD (i - 32 * k.val) else v.getLsbD i := by
  have h1 : ∀ j, (0xFFFFFFFF : Wide).getLsbD j = decide (j < 32) := by
    intro j
    have : (0xFFFFFFFF : Wide) = BitVec.setWidth 128 (BitVec.allOnes 32) := by decide
    rw [this, BitVec.getLsbD_setWidth, BitVec.getLsbD_allOnes]
    by_cases hj : j < 32
    · simp [hj, show j < 128 by omega]
    · simp [hj]
  simp only [setValueWord, BitVec.getLsbD_or, BitVec.getLsbD_and, BitVec.getLsbD_not, BitVec.getLsbD_shiftLeft,
    BitVec.getLsbD_setWidth, h1, hi]
  by_cases hlo : i < 32 * k.val
  · simp [hlo, show ¬32 * k.val ≤ i by omega]
  · by_cases hhi : i < 32 * k.val + 32
    · simp [hlo, hhi, show 32 * k.val ≤ i by omega, show i - 32 * k.val < 32 by omega, show i - 32 * k.val < 128 by omega]
    · simp [hlo, hhi, show ¬i - 32 * k.val < 32 by omega, BitVec.getLsbD_of_ge w (i - 32 * k.val) (by omega)]

/-- Each byte of BUF after one of its words is replaced (10_state.md R27, 20_memory.md R50). -/
theorem byteAt_setBufWord (b : Bytes9) (k : Fin 2) (w : Word) (j : Nat) :
    byteAt (setBufWord b k w) j =
      if 4 * k.val ≤ j ∧ j < 4 * k.val + 4 then w.extractLsb' (8 * (j - 4 * k.val)) 8 else byteAt b j := by
  simp only [setBufWord, byteAt_set]
  by_cases h : 4 * k.val ≤ j ∧ j < 4 * k.val + 4
  · obtain ⟨d, hd⟩ : ∃ d, j = 4 * k.val + d := ⟨j - 4 * k.val, by omega⟩
    have hd4 : d < 4 := by omega
    subst hd
    interval_cases d <;> simp
  · simp [h, show j ≠ 4 * k.val + 3 by omega, show j ≠ 4 * k.val + 2 by omega, show j ≠ 4 * k.val + 1 by omega,
      show j ≠ 4 * k.val by omega]

end Machine

end Sys2Proof
end

