-- ==== Sys2Proof/Tests/Slice0.lean ====
section
/-! SUPPORT. The model's own tests: the checks of WellFormed, words written out from spec/30_encoding.md, single steps from
spec/95_test_vectors.md, and one witness for each statement that has hypotheses. -/

open Sys2Proof Sys2Proof.Machine

namespace Sys2Proof.Tests

def nextOf : Outcome → Option State
  | .next t => some t
  | .fault _ => none
  | .refused _ => none

-- ==== WellFormed: an ill-formed term for each check ====

theorem test_read_of_one_byte_ill_formed : (Event.read 0x08 1).wellFormed = false := by decide
theorem test_write_of_eight_bytes_ill_formed : (Event.write 0x10 8 0).wellFormed = false := by decide
theorem test_unaligned_base_ill_formed : (Config.Platform.mk 0x1020).wellFormed = false := by decide
theorem test_aligned_base_well_formed : (Config.Platform.mk 0x1040).wellFormed = true := by decide
theorem test_address_past_window_ill_formed :
    (BusAccess.mk .read 0x1080 4).wellFormed ⟨0x1040⟩ = false ∧ (BusAccess.mk .read 0x103F 4).wellFormed ⟨0x1040⟩ = false := by
  decide
theorem test_halfword_access_ill_formed : (BusAccess.mk .read 0x1048 2).wellFormed ⟨0x1040⟩ = false := by decide
theorem test_reserved_bits_flagged_by_lint : (Instr.encode 1).lintClean = false ∧ (Instr.encode 0).lintClean = true := by decide
/-- No command word is illegal (30_encoding.md R69). -/
theorem test_every_command_well_formed : ∀ i ∈ [Instr.nop 5, .encode 5, .decode 5, .reserved 5], i.wellFormed = true := by decide

-- ==== Decode: words from 30_encoding.md R61 and R67, bit by bit (RSV in 31:2, OP in 1:0) ====

theorem test_decode_nop : decodeWord 0b000000000000000000000000000000_00 = .nop 0 := by decide
theorem test_decode_encode : decodeWord 0b000000000000000000000000000000_01 = .encode 0 := by decide
theorem test_decode_decode : decodeWord 0b000000000000000000000000000000_10 = .decode 0 := by decide
theorem test_decode_reserved : decodeWord 0b000000000000000000000000000000_11 = .reserved 0 := by decide
theorem test_decode_ignores_rsv :
    decodeWord 0b100000000000000000000000000001_01 = .encode 0b100000000000000000000000000001 := by decide
theorem test_encode_word : encode (.decode 0b100000000000000000000000000001) = 0b100000000000000000000000000001_10 := by decide
theorem test_decode_rejects_other_lengths :
    decodeBytes [] = .error (.notOneWord 0) ∧ decodeBytes [1, 0, 0] = .error (.notOneWord 3) ∧
      decodeBytes [1, 0, 0, 0, 0] = .error (.notOneWord 5) := by decide
theorem test_table_words :
    decodeTableWord 32 0 = some (.nop 0) ∧ decodeTableWord 32 1 = some (.encode 0) ∧
      decodeTableWord 32 2 = some (.decode 0) ∧ decodeTableWord 32 3 = some (.reserved 0) := by decide
theorem test_table_rows_disjoint :
    opcodeTable.Pairwise fun a b => a.mask &&& b.mask &&& (a.pattern ^^^ b.pattern) ≠ 0 := by decide

-- ==== The codec's functions: 95_test_vectors.md sections 1 and 2 ====

theorem test_enc_vectors :
    enc 0 = [0x00] ∧ enc 1 = [0x01] ∧ enc 127 = [0x7F] ∧ enc 128 = [0x80, 0x01] ∧ enc 300 = [0xAC, 0x02] ∧
      enc 16383 = [0xFF, 0x7F] ∧ enc 16384 = [0x80, 0x80, 0x01] := by decide
theorem test_nb_boundaries : nb 0 = 1 ∧ nb 16383 = 2 ∧ nb 16384 = 3 ∧ nb (2 ^ 63 - 1) = 9 ∧ nb (2 ^ 63) = 10 := by decide
theorem test_dec_vectors :
    dec (padded [0xAC, 0x02]) 2 = .ok 300 false false ∧ dec (padded [0xAC, 0x02]) 1 = .ok 0 true false ∧
      dec (padded [0x01, 0x05]) 2 = .ok 1 false true ∧ dec (padded [0xFF, 0x80, 0x00]) 3 = .ok 127 false false ∧
      dec (padded []) 0 = .ok 0 true false ∧ dec (padded [0x01]) 10 = .outOfRange := by decide

-- ==== Small states, written from the rules ====

/-- An idle block after a successful ENCODE of 300 (41_encode.md R97). -/
def idleState : State :=
  { State.reset with value := 300, len := 2, buf := #v[0xAC, 0x02, 0, 0, 0, 0, 0, 0, 0], done := true }

/-- ENCODE of 300 accepted, no micro-step yet (R76, R87). -/
def encodeStart : State := { State.reset with value := 300, opr := .enc, acc := 300 }

/-- ENCODE of 300 after its first micro-step (R97). -/
def encodeMid : State :=
  { State.reset with value := 300, opr := .enc, acc := 2, idx := 1, wb := #v[0xAC, 0, 0, 0, 0, 0, 0, 0, 0] }

/-- DECODE of [0xAC, 0x02] accepted, VALUE all ones. -/
def decodeStart : State :=
  { State.reset with value := BitVec.allOnes 128, len := 2, buf := #v[0xAC, 0x02, 0, 0, 0, 0, 0, 0, 0], opr := .dec }

/-- The same after its first micro-step (42_decode.md R115). -/
def decodeMid : State := { decodeStart with acc := 0x2C, idx := 1 }

/-- An unterminated byte [0x80] whose end is reached (42_decode.md R113). -/
def decodeAtEnd : State :=
  { State.reset with len := 1, buf := #v[0x80, 0, 0, 0, 0, 0, 0, 0, 0], opr := .dec, idx := 1 }

/-- The largest value at its last byte: IDX = 8 = nb - 1. -/
def encodeIdx8 : State := { State.reset with value := 0x7FFFFFFFFFFFFFFF, opr := .enc, acc := 0x7F, idx := 8 }

/-- The same one byte earlier. -/
def encodeIdx7 : State := { encodeIdx8 with acc := 0x3FFF, idx := 7 }

-- ==== One step of each instruction ====

/-- V4: NOP keeps STATUS 0x2. -/
theorem test_nop_keeps_status : (nextOf (exec (.nop 0) idleState)).map statusWord = some 0x00000002 := by decide
theorem test_nop_while_busy_sets_ovr : (nextOf (exec (.nop 0) encodeMid)).map statusWord = some 0x00010001 := by decide
/-- V15: acceptance clears the last error; STATUS is 0x1 while busy. -/
theorem test_encode_accepted :
    (nextOf (exec (.encode 0) { idleState with err := true, ecode := 1 })).map (fun t => (statusWord t, t.acc)) =
      some (0x00000001, 300) := by decide
/-- V7: 0xFFFFFFFD is ENCODE. -/
theorem test_encode_by_step :
    (nextOf (step (State.reset.withFetchWord 32 0xFFFFFFFD))).map (fun t => t.opr) = some .enc := by decide
theorem test_decode_accepted :
    (nextOf (exec (.decode 0) { idleState with acc := 7, idx := 9 })).map (fun t => (t.opr, t.acc, t.idx)) =
      some (.dec, 0, 0) := by decide
theorem test_decode_by_step :
    (nextOf (step (State.reset.withFetchWord 32 2))).map (fun t => t.opr) = some .dec := by decide
/-- V5: STATUS 0x36 at once, never busy. -/
theorem test_reserved_completes :
    (nextOf (step (State.reset.withFetchWord 32 3))).map statusWord = some 0x00000036 := by decide
/-- V6: 0xFFFFFFFF is the reserved command; OVR is kept. -/
theorem test_reserved_keeps_ovr :
    (nextOf (step ({ idleState with ovr := true }.withFetchWord 32 0xFFFFFFFF))).map statusWord = some 0x00010036 := by decide

-- ==== Micro-steps: the worked examples R97 and R115, and the corners ====

theorem test_encode_first_step : (nextOf (tick encodeStart)).map (fun t => (t.wb[0], t.acc, t.idx)) = some (0xAC, 2, 1) := by decide
theorem test_encode_last_step :
    (nextOf (tick encodeMid)).map (fun t => (readReg t .buf0, t.len, statusWord t)) = some (0x000002AC, 2, 0x00000002) := by decide
theorem test_encode_out_of_range :
    (nextOf (tick { encodeStart with value := 0x8000000000000000 })).map (fun t => (t.len, statusWord t)) =
      some (0, 0x00000016) := by decide
theorem test_decode_first_step : (nextOf (tick decodeStart)).map (fun t => (t.acc, t.idx, t.busy)) = some (0x2C, 1, true) := by decide
theorem test_decode_last_step : (nextOf (tick decodeMid)).map (fun t => (t.value, statusWord t)) = some (300, 0x00000002) := by decide
theorem test_decode_unterminated : (nextOf (tick decodeAtEnd)).map (fun t => (t.value, statusWord t)) = some (0, 0x00000102) := by decide
theorem test_decode_length_check :
    (nextOf (tick { decodeStart with len := 10 })).map (fun t => (t.value, statusWord t)) =
      some (BitVec.allOnes 128, 0x00000026) := by decide
theorem test_decode_trailing :
    (nextOf (tick { decodeMid with len := 3 })).map statusWord = some 0x00000202 := by decide

-- ==== Registers: vectors V1 to V17 ====

theorem test_read_id : (nextOf (runEvent (rd .id) encodeMid)).map (fun t => t.received) = some [0x55560001] := by decide
theorem test_read_cmd : (nextOf (runEvent (rd .cmd) encodeMid)).map (fun t => t.received) = some [0] := by decide
theorem test_write_buf2 :
    (nextOf (runEvent (wr .buf2 0xAABBCC7F) idleState)).map (fun t => readReg t .buf2) = some 0x0000007F := by decide
theorem test_write_reserved_offset :
    (nextOf (runEvent (.write 0x30 4 0x12345678) idleState)).map (fun t => readWord t 12) = some 0 := by decide
theorem test_write_len_while_busy :
    (nextOf (runEvent (wr .len 5) encodeMid)).map (fun t => (t.len, t.ovr)) = some (0, true) := by decide
theorem test_write_id_while_busy : (nextOf (runEvent (wr .id 0) encodeMid)).map (fun t => t.ovr) = some false := by decide
theorem test_clear_ovr :
    (nextOf (runEvent (wr .status 0x00010000) { idleState with ovr := true })).map (fun t => t.ovr) = some false := by decide
theorem test_keep_ovr :
    (nextOf (runEvent (wr .status 0x0000FFFF) { idleState with ovr := true })).map (fun t => t.ovr) = some true := by decide
theorem test_write_value1 :
    (nextOf (runEvent (wr .value1 0x80000000) { idleState with value := 5 })).map (fun t => t.value) =
      some 0x8000000000000005 := by decide
theorem test_reset_while_busy :
    (nextOf (runEvent .reset encodeMid)).map (fun t => (statusWord t, t.value, t.len)) = some (0, 0, 0) := by decide
/-- P5: the write of VALUE0 before completion is dropped, after completion it takes effect (70_reset_and_hazards.md R146). -/
theorem test_hazard_both_outcomes :
    (nextOf (runEvent (wr .value0 300) { encodeStart with value := 128 })).map (fun t => (t.value, t.ovr)) = some (128, true) ∧
      (nextOf (runEvent (wr .value0 300) { idleState with value := 128 })).map (fun t => (t.value, t.ovr)) = some (300, false) := by
  decide
theorem test_fault_out_of_reach : tick { decodeStart with idx := 9 } = .fault .idxOutOfRange := by rfl

-- ==== Witnesses: for each statement with hypotheses, a state and operands that meet them ====

theorem witness_ResetAbandonsCommand :
    { encodeMid with pending := [.reset, .tick] }.pending = .reset :: [.tick] ∧ encodeMid.opr ≠ .none := by decide
theorem witness_HeldResetIgnoresAccesses : { State.reset with rst := true }.rst = true := by decide
theorem witness_RstLevelResetsAndReleases : { encodeMid with rst := true }.rst = true := by decide
/-- Both ends of CMD's four byte offsets, 0x04 and 0x07, and the two other clauses. -/
theorem witness_StepRunsDecodedCommand :
    ({ idleState with pending := [.write 0x04 4 1] }.pending = [.write 0x04 4 1] ∧ idleState.rst = false ∧ wordOffset 0x04 = 1 ∧
      wordOffset 0x07 = 1) ∧
    { idleState with pending := [.reset] }.pending = .reset :: [] ∧ encodeMid.pending = [] := by decide
theorem witness_ReservedCommandBitsIgnored :
    (0xFFFFFFFD : Word).extractLsb' 0 2 = (0x00000001 : Word).extractLsb' 0 2 := by decide
theorem witness_NopHasNoEffect : idleState.opr = .none ∧ encodeMid.opr ≠ .none ∧ decodeMid.opr ≠ .none := by decide
theorem witness_ReservedOpcodeCompletesAtOnce : idleState.opr = .none := by decide
theorem witness_EncodeAcceptance : idleState.opr = .none := by decide
theorem witness_DecodeAcceptance : idleState.opr = .none := by decide
theorem witness_CommandWhileBusyDropped : encodeMid.opr ≠ .none ∧ decodeMid.opr ≠ .none := by decide
theorem witness_ReadTable : encodeMid.rst = false ∧ idleState.rst = false := by decide
theorem witness_WriteTableWhileIdle : idleState.rst = false ∧ idleState.opr = .none := by decide
theorem witness_WriteTableWhileBusy : encodeMid.rst = false ∧ encodeMid.opr ≠ .none := by decide
theorem witness_OtherWidthsRefused : (1 : Nat) ≠ 4 ∧ (8 : Nat) ≠ 4 ∧ (0 : Nat) ≠ 4 := by decide
/-- The first and last address of the window, and the ones just outside it. -/
theorem witness_BusAddressDecode :
    (Config.Platform.mk 0x1040).wellFormed = true ∧
    (0x1040 ≤ (BusAccess.mk .read 0x1040 4).addr ∧ (BusAccess.mk .read 0x1040 4).addr < 0x1040 + 64) ∧
    (0x1040 ≤ (BusAccess.mk (.write 1) 0x107F 4).addr ∧ (BusAccess.mk (.write 1) 0x107F 4).addr < 0x1040 + 64) ∧
    ¬(0x1040 ≤ (BusAccess.mk .read 0x103F 4).addr ∧ (BusAccess.mk .read 0x103F 4).addr < 0x1040 + 64) ∧
    ¬(0x1040 ≤ (BusAccess.mk .read 0x1080 4).addr ∧ (BusAccess.mk .read 0x1080 4).addr < 0x1040 + 64) := by decide
theorem witness_StatusRegisterLayout :
    encodeMid.rst = false ∧ (0x00010000 : Word).getLsbD 16 = true ∧ (0xFFFEFFFF : Word).getLsbD 16 = false := by decide
theorem witness_DataRegisterReadsBackWrite :
    idleState.rst = false ∧ idleState.opr = .none ∧
      ∀ r ∈ [Reg.value0, .value1, .value2, .value3, .len, .buf0, .buf1, .buf2], r ≠ .id ∧ r ≠ .cmd ∧ r ≠ .status := by decide
theorem witness_ReadsAndRepeatedWrites :
    (∃ t, wordOffset 0x10 ≠ 1 ∧ runEvent (.write 0x10 4 7) idleState = .next t ∧ t ≠ idleState) ∧
    wordOffset 0x04 = 1 ∧ idleState.rst = false ∧ idleState.opr = .none ∧ encodeMid.rst = false ∧ encodeMid.opr ≠ .none :=
  ⟨⟨_, by decide, rfl, by decide⟩, by decide⟩
/-- Idle to busy, busy to idle by completion, and by reset. -/
theorem witness_BusyReadsOprAndChanges :
    (∃ t, runEvent (.write 0x04 4 1) idleState = .next t ∧ idleState.opr = .none ∧ t.opr ≠ .none) ∧
    (∃ t, runEvent .tick encodeMid = .next t ∧ encodeMid.opr ≠ .none ∧ t.opr = .none) ∧
    (∃ t, runEvent .reset encodeMid = .next t ∧ t.opr = .none) :=
  ⟨⟨_, rfl, by decide, by decide⟩, ⟨_, rfl, by decide, by decide⟩, ⟨_, rfl, by decide⟩⟩
theorem witness_InternalRegistersUnreadWhileIdle :
    idleState.opr = .none ∧ ∃ t, runEvent (.write 0x20 4 7) idleState = .next t ∧ t.opr = .none :=
  ⟨by decide, _, rfl, by decide⟩
/-- Every register whose write is dropped sets OVR; and a set OVR is kept by a datapath step. -/
theorem witness_OvrSetAndCleared :
    (∀ r ∈ [Reg.cmd, .value0, .value1, .value2, .value3, .len, .buf0, .buf1, .buf2],
      droppedWhileBusy r = true ∧ (nextOf (runEvent (wr r 7) encodeMid)).map (fun t => t.ovr) = some true) ∧
    ∃ t, runEvent .tick { encodeMid with ovr := true } = .next t ∧ t.ovr = true :=
  ⟨by decide, _, rfl, by decide⟩
/-- The three ways: nothing changes, an acceptance, a completion. -/
theorem witness_ResultFieldsChangeOnly :
    (∃ t, runEvent .tick encodeStart = .next t ∧ resultFields t = resultFields encodeStart) ∧
    (∃ t, runEvent (.write 0x04 4 1) idleState = .next t ∧ resultFields t ≠ resultFields idleState) ∧
    (∃ t, runEvent .tick encodeMid = .next t ∧ resultFields t ≠ resultFields encodeMid) :=
  ⟨⟨_, rfl, by decide⟩, ⟨_, rfl, by decide⟩, ⟨_, rfl, by decide⟩⟩
theorem witness_DataRegistersChangeOnly :
    (∃ t, runEvent (.write 0x10 4 7) idleState = .next t ∧ t.value ≠ idleState.value) ∧
    (∃ t, runEvent .tick decodeMid = .next t ∧ t.value ≠ decodeMid.value) ∧
    (∃ t, runEvent .tick encodeMid = .next t ∧ t.len ≠ encodeMid.len ∧ t.buf ≠ encodeMid.buf) :=
  ⟨⟨_, rfl, by decide⟩, ⟨_, rfl, by decide⟩, ⟨_, rfl, by decide, by decide⟩⟩
theorem witness_InputsFrozenWhileBusy :
    (∃ t, encodeStart.opr ≠ .none ∧ runEvent .tick encodeStart = .next t ∧ t.opr ≠ .none) ∧
    (∃ t, encodeMid.opr ≠ .none ∧ runEvent .tick encodeMid = .next t ∧ t.opr = .none) :=
  ⟨⟨_, by decide, rfl, by decide⟩, ⟨_, by decide, rfl, by decide⟩⟩
theorem encodeMid_statusInv : StatusInv encodeMid :=
  ⟨by decide, by decide, by decide, by decide, by decide, by decide, by decide⟩
theorem witness_ErrorCompletionIsPrecise :
    (∃ t, StatusInv { encodeStart with value := 0x8000000000000000 } ∧
      runEvent .tick { encodeStart with value := 0x8000000000000000 } = .next t ∧ t.err = true) ∧
    (∃ t, StatusInv { decodeStart with len := 10 } ∧ runEvent .tick { decodeStart with len := 10 } = .next t ∧ t.err = true) :=
  ⟨⟨_, ⟨by decide, by decide, by decide, by decide, by decide, by decide, by decide⟩, rfl, by decide⟩,
    ⟨_, ⟨by decide, by decide, by decide, by decide, by decide, by decide, by decide⟩, rfl, by decide⟩⟩
theorem witness_TickByOperation :
    idleState.rst = false ∧ idleState.opr = .none ∧ encodeMid.rst = false ∧ encodeMid.opr = .enc ∧
      decodeMid.rst = false ∧ decodeMid.opr = .dec := by decide
/-- The two sides of 2^63, and values with only VALUE2 or VALUE3 set. -/
theorem witness_EncodeRangeCheck :
    encodeStart.rst = false ∧ encodeStart.opr = .enc ∧
      (0x7FFFFFFFFFFFFFFF : Wide).extractLsb' 63 65 = 0 ∧ (0x8000000000000000 : Wide).extractLsb' 63 65 ≠ 0 ∧
      (0x10000000000000000 : Wide).extractLsb' 63 65 ≠ 0 ∧ (0x1000000000000000000000000 : Wide).extractLsb' 63 65 ≠ 0 ∧
      ∃ t, tick encodeStart = .next t := ⟨by decide, by decide, by decide, by decide, by decide, by decide, _, rfl⟩
/-- IDX at both ends: 0, and 8 as the last byte; 7 just before it. -/
theorem witness_EncodeMicroStep :
    (∀ s ∈ [encodeStart, encodeMid, encodeIdx7, encodeIdx8],
      s.idx.toNat < 9 ∧ s.rst = false ∧ s.opr = .enc ∧ nb s.value.toNat ≤ 9) ∧
    decide (encodeIdx7.idx.toNat + 1 = nb encodeIdx7.value.toNat) = false ∧
    decide (encodeIdx8.idx.toNat + 1 = nb encodeIdx8.value.toNat) = true := by decide
/-- LEN 10 and 9, IDX = LEN at 0, 1 and 9, IDX 8 of 9, and a byte of each kind. -/
theorem witness_DecodeMicroStep :
    (decodeStart.rst = false ∧ decodeStart.opr = .dec) ∧
    { decodeStart with len := 10 }.len.toNat > 9 ∧
    (∀ s ∈ [decodeAtEnd, { decodeStart with len := 0 }, { decodeStart with len := 9, idx := 9 }],
      s.len.toNat ≤ 9 ∧ s.idx.toNat = s.len.toNat) ∧
    (∀ s ∈ [decodeStart, decodeMid, { decodeStart with len := 9, idx := 8 }], s.len.toNat ≤ 9 ∧ s.idx.toNat < s.len.toNat) ∧
    (byteAt decodeStart.buf 0).getLsbD 7 = true ∧ (byteAt decodeStart.buf 1).getLsbD 7 = false := by decide
theorem witness_BitLengthIsLeast : (127 : Nat) < 2 ^ 7 ∧ (0 : Nat) < 2 ^ 0 := by decide
theorem witness_NbIsLeast : (300 : Nat) < 2 ^ (7 * 2) ∧ 1 ≤ 2 ∧ (300 : Nat) ≠ 0 := by decide
theorem witness_EncIsVarintOfValue :
    (0 : Wide).toNat < 2 ^ 63 ∧ (0x7FFFFFFFFFFFFFFF : Wide).toNat < 2 ^ 63 ∧ 1 < (enc 300).length := by decide
/-- A non-minimal varint of 127, and a minimal one of 300. -/
theorem witness_EncIsMinimalAndUnique :
    (127 : Wide).toNat < 2 ^ 63 ∧ isVarint [0xFF, 0x80, 0x00] = true ∧ varintValue [0xFF, 0x80, 0x00] = (127 : Wide).toNat ∧
    (300 : Wide).toNat < 2 ^ 63 ∧ isVarint [0xAC, 0x02] = true ∧ varintValue [0xAC, 0x02] = (300 : Wide).toNat ∧
      [(0xAC : Byte), 0x02].getLast? = some 0x02 ∧ chunkBits 0x02 ≠ 0 ∧
    isVarint [0x00] = true ∧ varintValue [0x00] = (0 : Wide).toNat := by decide
/-- With bytes after the terminator, and nine bytes with none. -/
theorem witness_DecOfVarintWithTail :
    isVarint [0xAC, 0x02] = true ∧ [(0xAC : Byte), 0x02].length + [(0x33 : Byte)].length ≤ 9 ∧
    isVarint [0x80, 0x80, 0x80, 0x80, 0x80, 0x80, 0x80, 0x80, 0x01] = true := by decide
theorem witness_DecOutOfRangeAndUnterminated :
    (9 : Nat) ≤ 9 ∧ (∀ i < 9, (byteAt (Vector.replicate 9 (0xFF : Byte)) i).getLsbD 7 = true) ∧ (10 : Nat) > 9 := by decide
theorem witness_DecResultRange :
    dec (padded [0xFF, 0xFF, 0xFF, 0xFF, 0xFF, 0xFF, 0xFF, 0xFF, 0x7F]) 9 = .ok 0x7FFFFFFFFFFFFFFF false false ∧
    dec (padded [0x80]) 1 = .ok 0 true false ∧ dec (padded [0x7F, 0x80]) 2 = .ok 0x7F false true := by decide
/-- Two buffers that differ after the terminator only. -/
theorem witness_DecReadsOnlyScannedBytes :
    padded [0xAC, 0x02] ≠ padded [0xAC, 0x02, 0x33] ∧
    ∀ i < 9, (∀ j < i, (byteAt (padded [0xAC, 0x02]) j).getLsbD 7 = true) →
      byteAt (padded [0xAC, 0x02]) i = byteAt (padded [0xAC, 0x02, 0x33]) i := by decide
theorem witness_EncodeAgreesWithArchitecture :
    idleState.opr = .none ∧ idleState.rst = false ∧ idleState.value.toNat < 2 ^ 63 ∧
      ¬{ idleState with value := 0x8000000000000000 }.value.toNat < 2 ^ 63 := by decide
theorem witness_DecodeAgreesWithArchitecture :
    idleState.opr = .none ∧ idleState.rst = false ∧ decodeSteps idleState = 2 ∧
      decodeSteps { idleState with len := 10 } = 1 ∧
      decodeSteps { idleState with len := 9, buf := Vector.replicate 9 0xFF } = 10 := by decide
theorem witness_EncodeThenDecodeRoundTrip :
    idleState.opr = .none ∧ idleState.rst = false ∧ idleState.value.toNat < 2 ^ 63 := by decide
/-- A write of LEN that is dropped, a micro-step and a poll, before the last of the two micro-steps of 300. -/
theorem witness_HostCannotDisturbCommand :
    idleState.opr = .none ∧ idleState.rst = false ∧
    (∀ e ∈ [Event.write 0x20 4 5, .tick, .read 0x08 4, .write 0x04 4 2], calm e = true) ∧
    [Event.write 0x20 4 5, .tick, .read 0x08 4, .write 0x04 4 2].count .tick + 1 = encodeSteps idleState ∧
    [Event.write 0x20 4 5, .tick, .read 0x08 4, .write 0x04 4 2].count .tick + 1 = decodeSteps idleState := by decide
theorem encodeMid_blockInv : BlockInv encodeMid :=
  ⟨encodeMid_statusInv, by decide, fun _ => ⟨by decide, by decide, by decide, by decide⟩,
    fun h => (by cases h), fun h => (by cases h)⟩
theorem decodeMid_blockInv : BlockInv decodeMid :=
  ⟨⟨by decide, by decide, by decide, by decide, by decide, by decide, by decide⟩, by decide, fun h => (by cases h),
    fun _ => ⟨by decide, by decide, by decide, by decide⟩, fun h => (by cases h)⟩
theorem witness_InvariantKeptByStep :
    (BlockInv encodeMid ∧ ∃ t, step encodeMid = .next t) ∧ BlockInv decodeMid ∧ ∃ t, step decodeMid = .next t :=
  ⟨⟨encodeMid_blockInv, _, rfl⟩, decodeMid_blockInv, _, rfl⟩
theorem witness_StepNeverFaults : BlockInv encodeMid ∧ BlockInv decodeMid := ⟨encodeMid_blockInv, decodeMid_blockInv⟩
theorem witness_StatusFieldsConsistent : StatusInv encodeMid ∧ ∃ t, step encodeMid = .next t ∧ t.done = true :=
  ⟨encodeMid_statusInv, _, rfl, by decide⟩
theorem witness_NoCommandHangs : BlockInv encodeMid ∧ encodeMid.rst = false ∧ encodeMid.opr ≠ .none :=
  ⟨encodeMid_blockInv, by decide⟩
theorem witness_WaitLoopEnds : BlockInv decodeMid ∧ decodeMid.rst = false ∧ decodeMid.opr ≠ .none ∧ 1 ≤ 1 :=
  ⟨decodeMid_blockInv, by decide⟩
theorem witness_OperandPseudosStoreOperands : idleState.rst = false ∧ idleState.opr = .none := by decide
/-- The four clauses: idle; busy with a write of CMD, the first, and BUF2, the last register; a read; no access. -/
theorem witness_ReferenceCycle :
    (idleState.rst = false ∧ (Pins.mk false true true 1 1).rst = false ∧ idleState.opr = .none) ∧
    (encodeMid.rst = false ∧ encodeMid.opr ≠ .none ∧ regAt 1 = some .cmd ∧ droppedWhileBusy .cmd = true ∧
      regAt 11 = some .buf2 ∧ droppedWhileBusy .buf2 = true ∧ (Pins.mk false true true 11 1).sel = true ∧
      (Pins.mk false true true 11 1).we = true) ∧
    ((Pins.mk false true false 2 0).sel = true ∧ (Pins.mk false true false 2 0).we = false) ∧
    (Pins.mk false false false 0 0).sel = false := by decide

end Sys2Proof.Tests
end

section
/-! PROOFS of spec/00_scope.md: bit_length (R10) and nb (R11) are the least numbers of bits and of 7-bit groups. Each function
gets one equivalence (`bitLength_le_iff`, `nb_le_iff`) that says when it is at most k; leastness follows from it. -/

namespace Sys2Proof.Machine

/-- bit_length(n) is at most k exactly when n fits in k bits (R10). -/
theorem bitLength_le_iff (n k : Nat) : bitLength n ≤ k ↔ n < 2 ^ k := by
  by_cases hn : n = 0
  · simp [bitLength, hn]
  · rw [bitLength, if_neg hn, Nat.add_one_le_iff, Nat.log2_lt hn]

theorem lt_two_pow_bitLength (n : Nat) : n < 2 ^ bitLength n := (bitLength_le_iff n _).mp le_rfl

@[simp] theorem nb_zero : nb 0 = 1 := rfl

theorem nb_of_ne_zero {n : Nat} (hn : n ≠ 0) : nb n = (bitLength n + 6) / 7 := if_neg hn

theorem bitLength_pos {n : Nat} (hn : n ≠ 0) : 0 < bitLength n := by
  by_contra h
  have h0 : n < 2 ^ 0 := (bitLength_le_iff n 0).mp (by omega)
  omega

theorem one_le_nb (n : Nat) : 1 ≤ nb n := by
  by_cases hn : n = 0
  · simp [hn]
  · have hpos := bitLength_pos hn
    rw [nb_of_ne_zero hn]
    omega

/-- For k ≥ 1, nb(n) is at most k exactly when n fits in k groups of 7 bits (R11). -/
theorem nb_le_iff (n : Nat) {k : Nat} (hk : 1 ≤ k) : nb n ≤ k ↔ n < 2 ^ (7 * k) := by
  by_cases hn : n = 0
  · simp [hn, hk]
  · rw [nb_of_ne_zero hn, ← bitLength_le_iff]
    omega

theorem lt_two_pow_nb (n : Nat) : n < 2 ^ (7 * nb n) := (nb_le_iff n (one_le_nb n)).mp le_rfl

/-- Settles O36: leastness is `bitLength_le_iff`; the three values are evaluated. -/
theorem bitLengthIsLeast : Obligations.BitLengthIsLeast := by
  unfold Obligations.BitLengthIsLeast
  exact ⟨fun n => ⟨lt_two_pow_bitLength n, fun k => (bitLength_le_iff n k).mpr⟩, by decide⟩

/-- Settles O37: leastness is `nb_le_iff`, and its case k = 9 is the boundary 2^63. -/
theorem nbIsLeast : Obligations.NbIsLeast := by
  unfold Obligations.NbIsLeast
  exact ⟨fun n => ⟨one_le_nb n, lt_two_pow_nb n, fun _ hk => (nb_le_iff n hk).mpr⟩,
    fun n => nb_le_iff n (k := 9) (by decide), nb_zero, fun _ => nb_of_ne_zero⟩

end Sys2Proof.Machine
end

section
/-! PROOFS of spec/10_state.md: what STATUS and ID read and what a write to them does (R17, R19), when BUSY and OVR change
(R20, R29), and the reset values (R33). Each event's effect on OPR and DONE is said once (`runEvent_opr_cases`), and so is a
write's effect on OVR (`busWrite_ovr_iff`). -/

namespace Sys2Proof.Machine

-- ==== A write by the kind of its offset ====

theorem regAt_eq_cmd_iff (o : BitVec 4) : regAt o = some .cmd ↔ o = 1 := by
  revert o; decide

theorem regAt_eq_status_iff (o : BitVec 4) : regAt o = some .status ↔ o = 2 := by
  revert o; decide

/-- While rst is asserted a write is ignored (70_reset_and_hazards.md R142). -/
theorem runEvent_write_held {s : State} (off : BitVec 6) (w : Word) (hr : s.rst = true) :
    runEvent (.write off 4 w) s = .next s := by
  simp [runEvent, busWrite, hr]

/-- A write to a register other than CMD follows the register's rule (20_memory.md R46, R47). -/
theorem runEvent_write_reg {s : State} {off : BitVec 6} {r : Reg} (w : Word) (hr : s.rst = false)
    (ha : regAt (wordOffset off) = some r) (hc : r ≠ .cmd) :
    runEvent (.write off 4 w) s = .next (writeReg r w s) := by
  cases r <;> simp_all [runEvent, busWrite]

/-- A write to CMD runs its word's command (40_commands.md R75). -/
theorem runEvent_write_cmd {s : State} {off : BitVec 6} (w : Word) (hr : s.rst = false) (ho : wordOffset off = 1) :
    runEvent (.write off 4 w) s = exec (decodeWord w) s := by
  simp [runEvent, busWrite, hr, (regAt_eq_cmd_iff _).mpr ho]

theorem exec_idle (i : Instr) {s : State} (h : s.opr = .none) : exec i s = .next (commandEffect i s) := by
  rw [exec_eq_onCommand, onCommand_idle _ h]

-- ==== Acceptance ====

/-- The decoder keeps the opcode bits (30_encoding.md R61, R67). -/
theorem decodeWord_op (w : Word) : (decodeWord w).op = w.extractLsb' 0 2 := by
  have hlt : (opField w).toNat < 4 := (opField w).isLt
  apply BitVec.eq_of_toNat_eq
  change (decodeWord w).op.toNat = (opField w).toNat
  rw [decodeWord]
  generalize (opField w).toNat = op at hlt ⊢
  interval_cases op <;> rfl

/-- An idle block becomes busy by ENCODE and DECODE only (10_state.md R20). -/
theorem commandEffect_opr_ne_none_iff (i : Instr) {s : State} (h : s.opr = .none) :
    (commandEffect i s).opr ≠ .none ↔ i.op = 0b01 ∨ i.op = 0b10 := by
  cases i <;> simp [commandEffect, Instr.op, h]

@[simp] theorem commandEffect_ovr (i : Instr) (s : State) : (commandEffect i s).ovr = s.ovr := by
  cases i <;> simp [commandEffect]

-- ==== What a datapath step does to OPR, DONE and OVR ====

/-- A datapath step leaves OPR and DONE alone, or completes the command in flight. -/
theorem tick_opr_cases {s t : State} (h : tick s = .next t) :
    (t.opr = s.opr ∧ t.done = s.done) ∨ (s.opr ≠ .none ∧ t.opr = .none ∧ t.done = true) := by
  obtain ⟨-, ht⟩ | ⟨-, ho, he⟩ | ⟨-, ho, hd⟩ := tick_cases h
  · cases ht; exact .inl ⟨rfl, rfl⟩
  · obtain ⟨-, ht⟩ | ⟨_, -, -, ht⟩ | ⟨_, -, -, ht⟩ | ⟨-, -, ht⟩ := encodeStep_cases he <;> cases ht <;>
      simp [ho, emitByte]
  · obtain ⟨-, ht⟩ | ⟨-, -, ht⟩ | ⟨-, -, -, ht⟩ | ⟨-, -, -, ht⟩ | ⟨-, -, ht⟩ := decodeStep_cases hd <;> cases ht <;>
      simp [ho]

/-- No datapath step, a completion included, changes OVR (10_state.md R29). -/
theorem tick_ovr {s t : State} (h : tick s = .next t) : t.ovr = s.ovr := by
  obtain ⟨-, ht⟩ | ⟨-, -, he⟩ | ⟨-, -, hd⟩ := tick_cases h
  · cases ht; rfl
  · obtain ⟨-, ht⟩ | ⟨_, -, -, ht⟩ | ⟨_, -, -, ht⟩ | ⟨-, -, ht⟩ := encodeStep_cases he <;> cases ht <;> rfl
  · obtain ⟨-, ht⟩ | ⟨-, -, ht⟩ | ⟨-, -, -, ht⟩ | ⟨-, -, -, ht⟩ | ⟨-, -, ht⟩ := decodeStep_cases hd <;> cases ht <;> rfl

-- ==== OPR after an event ====

/-- A write leaves OPR alone, or is the command of an idle block. -/
theorem busWrite_opr_cases {off : BitVec 6} {w : Word} {s t : State} (h : busWrite off 4 w s = .next t) :
    (s.rst = false ∧ s.opr = .none ∧ wordOffset off = 1 ∧ t = commandEffect (decodeWord w) s) ∨ t.opr = s.opr := by
  obtain ⟨-, ht⟩ | ⟨-, -, ht⟩ | ⟨hr, ha, he⟩ | ⟨-, r, -, -, ht⟩ := busWrite_cases h
  · cases ht; exact .inr rfl
  · cases ht; exact .inr rfl
  · obtain ⟨-, ht⟩ | ⟨hs, ht⟩ := exec_cases he <;> cases ht
    · exact .inr (overrun_opr s)
    · exact .inl ⟨hr, hs, (regAt_eq_cmd_iff _).mp ha, rfl⟩
  · cases ht; exact .inr (writeReg_opr r w s)

/-- Every way an event can treat OPR: a command written while idle, a completion, a reset, or no change (10_state.md R20). -/
theorem runEvent_opr_cases {e : Event} {s t : State} (h : runEvent e s = .next t) :
    (s.rst = false ∧ s.opr = .none ∧
      ∃ off w, e = .write off 4 w ∧ wordOffset off = 1 ∧ t = commandEffect (decodeWord w) s) ∨
    (e = .tick ∧ s.opr ≠ .none ∧ t.opr = .none ∧ t.done = true) ∨
    ((e = .reset ∨ e = .setRst true) ∧ t.opr = .none) ∨
    (e ≠ .reset ∧ e ≠ .setRst true ∧ t.opr = s.opr ∧ (e = .tick → t.done = s.done)) := by
  obtain ⟨rfl, ht⟩ | ⟨off, rfl, hrd⟩ | ⟨off, w, rfl, hw⟩ | ⟨rfl, ht⟩ | ⟨rfl, ht⟩ | ⟨rfl, ht⟩ | ⟨_, _, -, ht, -⟩ :=
    runEvent_cases h
  · obtain ⟨hopr, hdone⟩ | hc := tick_opr_cases ht
    · simp [hopr, hdone]
    · exact .inr (.inl ⟨rfl, hc⟩)
  · cases hrd; simp
  · obtain ⟨hr, hs, ho, ht⟩ | hopr := busWrite_opr_cases hw
    · exact .inl ⟨hr, hs, off, w, rfl, ho, ht⟩
    · simp [hopr]
  · cases ht; simp
  · cases ht; simp
  · cases ht; simp
  · cases ht

/-- The event that makes an idle block busy (10_state.md R20). -/
theorem runEvent_idle_becomes_busy_iff {e : Event} {s t : State} (h : runEvent e s = .next t) (hs : s.opr = .none) :
    t.opr ≠ .none ↔ s.rst = false ∧
      ∃ off w, e = .write off 4 w ∧ wordOffset off = 1 ∧ (w.extractLsb' 0 2 = 0b01 ∨ w.extractLsb' 0 2 = 0b10) := by
  constructor
  · intro ht
    obtain ⟨hr, -, off, w, he, ho, rfl⟩ | ⟨-, hb, -⟩ | ⟨-, hn⟩ | ⟨-, -, hopr, -⟩ := runEvent_opr_cases h
    · rw [commandEffect_opr_ne_none_iff _ hs, decodeWord_op] at ht
      exact ⟨hr, off, w, he, ho, ht⟩
    · exact absurd hs hb
    · exact absurd hn ht
    · exact absurd (hopr.trans hs) ht
  · rintro ⟨hr, off, w, rfl, ho, hop⟩
    rw [runEvent_write_cmd w hr ho, exec_idle _ hs] at h
    cases h
    rwa [commandEffect_opr_ne_none_iff _ hs, decodeWord_op]

/-- Only a reset or a completion makes a busy block idle (10_state.md R20). -/
theorem runEvent_busy_becomes_idle {e : Event} {s t : State} (h : runEvent e s = .next t) (hs : s.opr ≠ .none)
    (ht : t.opr = .none) : e = .reset ∨ e = .setRst true ∨ (e = .tick ∧ t.done = true) := by
  obtain ⟨-, hn, -⟩ | ⟨he, -, -, hd⟩ | ⟨he | he, -⟩ | ⟨-, -, hopr, -⟩ := runEvent_opr_cases h
  · exact absurd hn hs
  · exact .inr (.inr ⟨he, hd⟩)
  · exact .inl he
  · exact .inr (.inl he)
  · exact absurd (hopr.symm.trans ht) hs

/-- A reset, and a datapath step that sets DONE, leaves the block idle (10_state.md R20, R21). -/
theorem runEvent_ends_idle {e : Event} {s t : State} (h : runEvent e s = .next t)
    (he : e = .reset ∨ e = .setRst true ∨ (e = .tick ∧ s.done = false ∧ t.done = true)) : t.opr = .none := by
  obtain ⟨-, -, off, w, rfl, -⟩ | ⟨-, -, hn, -⟩ | ⟨-, hn⟩ | ⟨h1, h2, -, hd⟩ := runEvent_opr_cases h
  · simp at he
  · exact hn
  · exact hn
  · obtain he | he | ⟨he, hs, ht⟩ := he
    · exact absurd he h1
    · exact absurd he h2
    · simp [hd he, hs] at ht

-- ==== OVR after a write ====

/-- OVR after a write to a register other than CMD (10_state.md R19, R29). -/
theorem writeReg_ovr {r : Reg} (w : Word) (s : State) (hc : r ≠ .cmd) :
    (writeReg r w s).ovr = true ↔
      (s.opr ≠ .none ∧ droppedWhileBusy r = true) ∨ (s.ovr = true ∧ ¬(r = .status ∧ w.getLsbD 16 = true)) := by
  by_cases hs : s.opr = .none <;> cases r <;> simp_all [writeReg, droppedWhileBusy]

/-- OVR after a write (10_state.md R29, 20_memory.md R47). -/
theorem busWrite_ovr_iff {off : BitVec 6} {w : Word} {s t : State} (h : busWrite off 4 w s = .next t) :
    t.ovr = true ↔
      (s.rst = false ∧ s.opr ≠ .none ∧ ∃ r, regAt (wordOffset off) = some r ∧ droppedWhileBusy r = true) ∨
      (s.ovr = true ∧ ¬(s.rst = false ∧ wordOffset off = 2 ∧ w.getLsbD 16 = true)) := by
  rw [← regAt_eq_status_iff]
  obtain ⟨hr, ht⟩ | ⟨hr, ha, ht⟩ | ⟨hr, ha, he⟩ | ⟨hr, r, ha, hc, ht⟩ := busWrite_cases h
  · cases ht; simp [hr]
  · cases ht; simp [ha]
  · obtain ⟨hs, ht⟩ | ⟨hs, ht⟩ := exec_cases he <;> cases ht <;> simp [hr, ha, hs, droppedWhileBusy]
  · cases ht; simp [hr, ha, writeReg_ovr w s hc]

-- ==== The words of STATUS and ID ====

theorem statusWord_ecode (s : State) : (statusWord s).extractLsb' 4 4 = s.ecode := by
  apply BitVec.eq_of_getLsbD_eq
  intro i hi
  rw [BitVec.getLsbD_extractLsb', statusWord_getLsbD]
  simp [hi, show 4 + i < 8 by omega, show 4 + i ≠ 0 ∧ 4 + i ≠ 1 ∧ 4 + i ≠ 2 by omega]

/-- Bits 3, 15:10 and 31:17 of STATUS read 0 (10_state.md R19). -/
theorem statusWord_getLsbD_reserved (s : State) {i : Nat} (h : i = 3 ∨ (10 ≤ i ∧ i < 16) ∨ 17 ≤ i) :
    (statusWord s).getLsbD i = false := by
  simp [statusWord_getLsbD, show i ≠ 0 ∧ i ≠ 1 ∧ i ≠ 2 ∧ ¬(4 ≤ i ∧ i < 8) ∧ i ≠ 8 ∧ i ≠ 9 ∧ i ≠ 16 by omega]

/-- A field of STATUS that lies in reserved bits reads 0. -/
theorem statusWord_reserved_field (s : State) {a n : Nat}
    (h : ∀ i < n, a + i = 3 ∨ (10 ≤ a + i ∧ a + i < 16) ∨ 17 ≤ a + i) : (statusWord s).extractLsb' a n = 0 := by
  apply BitVec.eq_of_getLsbD_eq
  intro i hi
  rw [BitVec.getLsbD_extractLsb', statusWord_getLsbD_reserved s (h i hi)]
  simp

theorem statusWord_busy (s : State) : (statusWord s).getLsbD 0 = decide (s.opr ≠ .none) := by
  rw [statusWord_getLsbD, if_pos rfl, Bool.eq_iff_iff, busy_iff, decide_eq_true_iff]

theorem readReg_reset_status : readReg State.reset .status = 0 := by decide

theorem getElem_zero {i : Nat} (h : i < 9) : Bytes9.zero[i] = 0x00 := by
  rw [← byteAt_lt _ h, byteAt_zero]

-- ==== The obligations ====

/-- Settles O20: the layout is `statusWord_getLsbD` at each field, and a write to STATUS is `writeStatus`. -/
theorem statusRegisterLayout : Obligations.StatusRegisterLayout := by
  unfold Obligations.StatusRegisterLayout
  refine ⟨fun s => ⟨statusWord_busy s, statusWord_getLsbD s 1, statusWord_getLsbD s 2, statusWord_getLsbD s 3,
    statusWord_ecode s, statusWord_getLsbD s 8, statusWord_getLsbD s 9, statusWord_reserved_field s (by omega),
    statusWord_getLsbD s 16, statusWord_reserved_field s (by omega)⟩, readReg_reset_status, fun s w hr => ?_⟩
  have hwr : runEvent (.write 0x08 4 w) s = .next (writeStatus w s) :=
    runEvent_write_reg (r := .status) w hr (by decide) (by decide)
  rw [hwr]
  constructor <;> intro hw <;> rw [writeStatus, hw] <;> rfl

/-- Settles O25: each clause is one use of `runEvent_opr_cases`. -/
theorem busyReadsOprAndChanges : Obligations.BusyReadsOprAndChanges := by
  unfold Obligations.BusyReadsOprAndChanges
  exact fun s => ⟨statusWord_busy s, fun e t h =>
    ⟨runEvent_idle_becomes_busy_iff h, runEvent_busy_becomes_idle h, runEvent_ends_idle h⟩⟩

/-- Settles O27: only writes and resets change OVR, and a write does what `busWrite_ovr_iff` says. -/
theorem ovrSetAndCleared : Obligations.OvrSetAndCleared := by
  unfold Obligations.OvrSetAndCleared
  intro s t e h
  obtain ⟨rfl, ht⟩ | ⟨off, rfl, hrd⟩ | ⟨off, w, rfl, hw⟩ | ⟨rfl, ht⟩ | ⟨rfl, ht⟩ | ⟨rfl, ht⟩ | ⟨_, _, -, ht, -⟩ :=
    runEvent_cases h
  · simp [tick_ovr ht]
  · cases hrd; simp
  · simp [busWrite_ovr_iff hw]
  · cases ht; simp
  · cases ht; simp
  · cases ht; simp
  · cases ht

/-- Settles O1: the fields by definition, the nine bytes by `getElem_zero`. -/
theorem resetValuesOfEveryRegister : Obligations.ResetValuesOfEveryRegister := by
  unfold Obligations.ResetValuesOfEveryRegister
  exact ⟨rfl, rfl, fun _ => getElem_zero, rfl, rfl, rfl, fun _ => getElem_zero, rfl, rfl, rfl, rfl, rfl, rfl, rfl,
    readReg_reset_status, rfl, rfl⟩

/-- Settles O21: the ID word is the same in the reset state, and a write to ID is ignored, held in reset or not. -/
theorem idIsConstant : Obligations.IdIsConstant := by
  unfold Obligations.IdIsConstant
  refine fun s => ⟨rfl, fun w => ?_⟩
  cases hr : s.rst
  · exact runEvent_write_reg (r := .id) w hr (by decide) (by decide)
  · exact runEvent_write_held _ w hr

end Sys2Proof.Machine
end

section
/-! PROOFS of spec/20_memory.md: the read table (R45), the write tables while idle and while busy (R46, R47), one step for
every access (R48), the packing of registers into words (R50) and repeated accesses (R52). Each read and each write of the
window is one use of a lemma about its kind of register (`runEvent_read_reg`, `runEvent_write_store`,
`runEvent_write_dropped`, `runEvent_write_ignored`). -/

namespace Sys2Proof.Machine

-- ==== The address map ====

theorem regAt_regOffset (r : Reg) : regAt (wordOffset (regOffset r)) = some r := by
  cases r <;> decide

-- ==== Reads ====

/-- BUSY in the form of R45's STATUS row. -/
theorem busy_eq_decide (s : State) : s.busy = decide (s.opr ≠ .none) := by
  rw [Bool.eq_iff_iff, busy_iff, decide_eq_true_iff]

/-- The words the host has read are no part of what a register reads as (log entry 4). -/
theorem readWord_received (s : State) (ws : List Word) (o : BitVec 4) :
    readWord { s with received := ws } o = readWord s o := by
  unfold readWord
  cases regAt o with
  | none => rfl
  | some r => cases r <;> rfl

/-- A read gives the same word whatever the host has read before (20_memory.md R52). -/
theorem runEvent_read_received (s : State) (ws : List Word) (off : BitVec 6) :
    runEvent (.read off 4) { s with received := ws } =
      .next { s with received := readWord (if s.rst then State.reset else s) (wordOffset off) :: ws } := by
  by_cases hr : s.rst = true
  · simp only [runEvent, busRead_eq, if_pos hr]
  · simp only [runEvent, busRead_eq, if_neg hr, readWord_received]

/-- A read of a register gives its word (20_memory.md R45). -/
theorem runEvent_read_reg {s : State} (r : Reg) (hr : s.rst = false) :
    runEvent (.read (regOffset r) 4) s = .next { s with received := readReg s r :: s.received } := by
  simp [runEvent, busRead_eq, hr, readWord, regAt_regOffset]

/-- A read of a reserved offset gives 0 (20_memory.md R45). -/
theorem runEvent_read_reserved {s : State} {off : BitVec 6} (hr : s.rst = false) (ha : regAt (wordOffset off) = none) :
    runEvent (.read off 4) s = .next { s with received := 0 :: s.received } := by
  simp [runEvent, busRead_eq, hr, readWord, ha]

-- ==== Registers after a write ====

theorem writeReg_idle {r : Reg} (w : Word) {s : State} (hs : s.opr = .none) (hd : droppedWhileBusy r = true) :
    writeReg r w s = storeReg r w s := by
  cases r <;> simp_all [writeReg, droppedWhileBusy]

theorem writeReg_busy {r : Reg} (w : Word) {s : State} (hs : s.opr ≠ .none) (hd : droppedWhileBusy r = true) :
    writeReg r w s = overrun s := by
  cases r <;> simp_all [writeReg, droppedWhileBusy]

theorem writeStatus_eq (w : Word) (s : State) :
    writeStatus w s = { s with ovr := if w.getLsbD 16 then false else s.ovr } := by
  unfold writeStatus
  split <;> rfl

/-- VALUE with word k replaced keeps the bits above and below that word (10_state.md R25). -/
theorem setValueWord_eq_append (v : Wide) (k : Fin 4) (w : Word) :
    setValueWord v k w = BitVec.cast (by omega)
      (v.extractLsb' (32 * k.val + 32) (96 - 32 * k.val) ++ w ++ v.extractLsb' 0 (32 * k.val)) := by
  apply BitVec.eq_of_getLsbD_eq
  intro i hi
  rw [setValueWord_getLsbD v k w i hi, BitVec.getLsbD_cast, BitVec.getLsbD_append, BitVec.getLsbD_append]
  by_cases hlo : i < 32 * k.val
  · simp [hlo, show ¬32 * k.val ≤ i by omega]
  by_cases hhi : i - 32 * k.val < 32
  · simp [hlo, hhi, show 32 * k.val ≤ i ∧ i < 32 * k.val + 32 by omega]
  · simp [hlo, hhi, show ¬i < 32 * k.val + 32 by omega, show i - 32 * k.val - 32 < 96 - 32 * k.val by omega,
      show 32 * k.val + 32 + (i - 32 * k.val - 32) = i by omega]

theorem setValueWord_zero (v : Wide) (w : Word) : setValueWord v 0 w = v.extractLsb' 32 96 ++ w :=
  (setValueWord_eq_append v 0 w).trans (BitVec.append_zero_width _ _)

theorem setValueWord_one (v : Wide) (w : Word) :
    setValueWord v 1 w = v.extractLsb' 64 64 ++ w ++ v.extractLsb' 0 32 := setValueWord_eq_append v 1 w

theorem setValueWord_two (v : Wide) (w : Word) :
    setValueWord v 2 w = v.extractLsb' 96 32 ++ w ++ v.extractLsb' 0 64 := setValueWord_eq_append v 2 w

theorem setValueWord_three (v : Wide) (w : Word) : setValueWord v 3 w = w ++ v.extractLsb' 0 96 := by
  have h := setValueWord_eq_append v 3 w
  rwa [BitVec.zero_width_append] at h

theorem setBufWord_zero (b : Bytes9) (w : Word) :
    setBufWord b 0 w = #v[w.extractLsb' 0 8, w.extractLsb' 8 8, w.extractLsb' 16 8, w.extractLsb' 24 8,
      b[4], b[5], b[6], b[7], b[8]] := by
  apply bytes9_ext
  intro k hk
  rw [byteAt_setBufWord]
  interval_cases k <;> simp [byteAt_lt]

theorem setBufWord_one (b : Bytes9) (w : Word) :
    setBufWord b 1 w = #v[b[0], b[1], b[2], b[3],
      w.extractLsb' 0 8, w.extractLsb' 8 8, w.extractLsb' 16 8, w.extractLsb' 24 8, b[8]] := by
  apply bytes9_ext
  intro k hk
  rw [byteAt_setBufWord]
  interval_cases k <;> simp [byteAt_lt]

theorem set_byte_eight (b : Bytes9) (x : Byte) :
    b.set 8 x = #v[b[0], b[1], b[2], b[3], b[4], b[5], b[6], b[7], x] := by
  apply bytes9_ext
  intro k hk
  rw [byteAt_set _ _ _ _ (by decide)]
  interval_cases k <;> simp [byteAt_lt]

-- ==== Writes by the kind of their register ====

/-- Every write of 4 bytes answers a next state (20_memory.md R48). -/
theorem runEvent_write_completes (off : BitVec 6) (w : Word) (s : State) : ∃ t, runEvent (.write off 4 w) s = .next t := by
  obtain ⟨-, h⟩ | ⟨-, -, h⟩ | ⟨-, -, he⟩ | ⟨-, r, -, -, h⟩ := busWrite_cases (off := off) (w := w) (s := s) rfl
  · exact ⟨_, h⟩
  · exact ⟨_, h⟩
  · obtain ⟨-, h⟩ | ⟨-, h⟩ := exec_cases he <;> exact ⟨_, h⟩
  · exact ⟨_, h⟩

/-- A write to ID or to a reserved offset has no effect, in any state (20_memory.md R46, R47). -/
theorem runEvent_write_ignored {s : State} {off : BitVec 6} (w : Word)
    (ha : regAt (wordOffset off) = none ∨ regAt (wordOffset off) = some .id) : runEvent (.write off 4 w) s = .next s := by
  cases hr : s.rst
  · obtain ha | ha := ha
    · simp [runEvent, busWrite, hr, ha]
    · exact runEvent_write_reg w hr ha (by decide)
  · exact runEvent_write_held off w hr

/-- While busy, a write to CMD or to a data register is dropped (20_memory.md R47). -/
theorem runEvent_write_dropped {s : State} {off : BitVec 6} {r : Reg} (w : Word) (hr : s.rst = false) (hs : s.opr ≠ .none)
    (ha : regAt (wordOffset off) = some r) (hd : droppedWhileBusy r = true) :
    runEvent (.write off 4 w) s = .next (overrun s) := by
  by_cases hc : r = .cmd
  · subst hc
    rw [runEvent_write_cmd w hr ((regAt_eq_cmd_iff _).mp ha), exec_eq_onCommand, onCommand_busy _ hs]
  · rw [runEvent_write_reg w hr ha hc, writeReg_busy w hs hd]

/-- While idle, a write to a data register is stored (20_memory.md R46). -/
theorem runEvent_write_store {s : State} {r : Reg} (w : Word) (hr : s.rst = false) (hs : s.opr = .none) (hc : r ≠ .cmd)
    (hd : droppedWhileBusy r = true) : runEvent (.write (regOffset r) 4 w) s = .next (storeReg r w s) := by
  rw [runEvent_write_reg w hr (regAt_regOffset r) hc, writeReg_idle w hs hd]

/-- A write to STATUS, busy or not (10_state.md R19). -/
theorem runEvent_write_status {s : State} (w : Word) (hr : s.rst = false) :
    runEvent (.write 0x08 4 w) s = .next { s with ovr := if w.getLsbD 16 then false else s.ovr } := by
  rw [← writeStatus_eq]
  exact runEvent_write_reg (r := .status) w hr (by decide) (by decide)

-- ==== Repeated writes ====

theorem setValueWord_setValueWord (v : Wide) (k : Fin 4) (w : Word) :
    setValueWord (setValueWord v k w) k w = setValueWord v k w := by
  apply BitVec.eq_of_getLsbD_eq
  intro i hi
  rw [setValueWord_getLsbD _ k w i hi, setValueWord_getLsbD v k w i hi]
  split <;> rfl

theorem setBufWord_setBufWord (b : Bytes9) (k : Fin 2) (w : Word) :
    setBufWord (setBufWord b k w) k w = setBufWord b k w := by
  apply bytes9_ext
  intro j _
  rw [byteAt_setBufWord, byteAt_setBufWord]
  split <;> rfl

theorem storeReg_storeReg (r : Reg) (w : Word) (s : State) : storeReg r w (storeReg r w s) = storeReg r w s := by
  cases r <;> simp [storeReg, setValueWord_setValueWord, setBufWord_setBufWord]

theorem writeStatus_writeStatus (w : Word) (s : State) : writeStatus w (writeStatus w s) = writeStatus w s := by
  rw [writeStatus_eq, writeStatus_eq]
  cases w.getLsbD 16 <;> rfl

/-- Writing the same word to a register twice is writing it once (20_memory.md R52). -/
theorem writeReg_writeReg (r : Reg) (w : Word) (s : State) : writeReg r w (writeReg r w s) = writeReg r w s := by
  cases hd : droppedWhileBusy r with
  | false =>
    cases r with
    | id => rfl
    | status => exact writeStatus_writeStatus w s
    | _ => cases hd
  | true =>
    by_cases hs : s.opr = .none
    · rw [writeReg_idle w hs hd, writeReg_idle w (by simp [hs]) hd, storeReg_storeReg]
    · rw [writeReg_busy w hs hd, writeReg_busy w (by simp [hs]) hd]; rfl

/-- The same write to any offset but CMD's, done twice, is done once (20_memory.md R52). -/
theorem runEvent_write_twice {s t : State} {off : BitVec 6} {w : Word} (ho : wordOffset off ≠ 1)
    (h : runEvent (.write off 4 w) s = .next t) : runEvent (.write off 4 w) t = .next t := by
  obtain ⟨-, ht⟩ | ⟨-, -, ht⟩ | ⟨-, ha, -⟩ | ⟨hr, r, ha, hc, ht⟩ := busWrite_cases (off := off) (w := w) (s := s) h
  · cases ht; exact h
  · cases ht; exact h
  · exact absurd ((regAt_eq_cmd_iff _).mp ha) ho
  · cases ht
    rw [runEvent_write_reg w (by simp [hr]) ha hc, writeReg_writeReg]

-- ==== Packing ====

/-- Byte j of four packed bytes sits in bits 8j+7:8j (20_memory.md R50). -/
theorem packed_getLsbD (b : Bytes9) {a j i : Nat} (ha : a + 3 < 9) (hj : j < 4) (hi : i < 8) :
    BitVec.getLsbD (w := 32) (b[a + 3] ++ b[a + 2] ++ b[a + 1] ++ b[a]) (8 * j + i) = (byteAt b (a + j)).getLsbD i := by
  rw [getLsbD_fourBytes, byteAt_lt b (by omega)]
  split_ifs with h0 h1 h2
  · obtain rfl : j = 0 := by omega
    simp
  · obtain rfl : j = 1 := by omega
    simp
  · obtain rfl : j = 2 := by omega
    simp [show 8 * 2 + i - 16 = i by omega]
  · obtain rfl : j = 3 := by omega
    simp [show 8 * 3 + i - 24 = i by omega]

/-- The same for the whole byte. -/
theorem packed_byte (b : Bytes9) {a j : Nat} (ha : a + 3 < 9) (hj : j < 4) :
    BitVec.extractLsb' (n := 32) (8 * j) 8 (b[a + 3] ++ b[a + 2] ++ b[a + 1] ++ b[a]) = byteAt b (a + j) := by
  apply BitVec.eq_of_getLsbD_eq
  intro i hi
  rw [BitVec.getLsbD_extractLsb', packed_getLsbD b ha hj hi]
  simp [hi]

/-- BUF2 holds BUF[8] in its low byte and 0 above it (20_memory.md R50). -/
theorem readReg_buf2_getLsbD (s : State) (i : Nat) :
    (readReg s .buf2).getLsbD i = (byteAt s.buf 8).getLsbD i := by
  refine (BitVec.getLsbD_append (x := 0#24) (y := s.buf[8])).trans ?_
  rw [byteAt_lt _ (by decide)]
  split_ifs with hi
  · rfl
  · simp [BitVec.getLsbD_of_ge s.buf[8] i (by omega)]

-- ==== The obligations ====

/-- Settles O14: each row is a read of a register or of a reserved offset. -/
theorem readTable : Obligations.ReadTable := by
  unfold Obligations.ReadTable
  intro s hr got
  have hreg (r : Reg) : got (regOffset r) (readReg s r) := runEvent_read_reg r hr
  have hres (off : BitVec 6) (ha : regAt (wordOffset off) = none) : got off 0 := runEvent_read_reserved hr ha
  refine ⟨hreg .id, hreg .cmd, ?_, hres _ (by decide), hreg .value0, hreg .value1, hreg .value2, hreg .value3,
    hreg .len, hreg .buf0, hreg .buf1, hreg .buf2, hres _ (by decide), hres _ (by decide), hres _ (by decide),
    hres _ (by decide)⟩
  rw [← busy_eq_decide]
  exact hreg .status

/-- Settles O15: a data register is stored (`runEvent_write_store`), with the word's place in VALUE or BUF written out. -/
theorem writeTableWhileIdle : Obligations.WriteTableWhileIdle := by
  unfold Obligations.WriteTableWhileIdle
  intro s w hr hs does
  have hstore (r : Reg) (hc : r ≠ .cmd) (hd : droppedWhileBusy r = true) : does (regOffset r) (storeReg r w s) :=
    runEvent_write_store w hr hs hc hd
  have hkeep (off : BitVec 6) (ha : regAt (wordOffset off) = none ∨ regAt (wordOffset off) = some .id) : does off s :=
    runEvent_write_ignored w ha
  refine ⟨runEvent_write_cmd w hr (by decide), runEvent_write_status w hr, ?_, ?_, ?_, ?_, hstore .len (by decide) rfl,
    ?_, ?_, ?_, hkeep _ (by decide), hkeep _ (by decide), hkeep _ (by decide), hkeep _ (by decide), hkeep _ (by decide),
    hkeep _ (by decide)⟩
  · rw [← setValueWord_zero]; exact hstore .value0 (by decide) rfl
  · rw [← setValueWord_one]; exact hstore .value1 (by decide) rfl
  · rw [← setValueWord_two]; exact hstore .value2 (by decide) rfl
  · rw [← setValueWord_three]; exact hstore .value3 (by decide) rfl
  · rw [← setBufWord_zero]; exact hstore .buf0 (by decide) rfl
  · rw [← setBufWord_one]; exact hstore .buf1 (by decide) rfl
  · rw [← set_byte_eight]; exact hstore .buf2 (by decide) rfl

/-- Settles O16: the three lists of offsets are the dropped registers, STATUS, and what ignores a write. -/
theorem writeTableWhileBusy : Obligations.WriteTableWhileBusy := by
  unfold Obligations.WriteTableWhileBusy
  intro s w hr hs does
  have hdropped : ∀ off ∈ [0x04, 0x10, 0x14, 0x18, 0x1C, 0x20, 0x24, 0x28, 0x2C],
      (regAt (wordOffset off)).any droppedWhileBusy = true := by decide
  have hignored : ∀ off ∈ [0x00, 0x0C, 0x30, 0x34, 0x38, 0x3C],
      regAt (wordOffset off) = none ∨ regAt (wordOffset off) = some .id := by decide
  refine ⟨fun off ho => ?_, runEvent_write_status w hr, fun off ho => runEvent_write_ignored w (hignored off ho)⟩
  obtain ⟨r, ha, hd⟩ := (Option.any_eq_true _ _).mp (hdropped off ho)
  exact runEvent_write_dropped w hr hs ha hd

/-- Settles O18: a read answers by definition, a write by `runEvent_write_completes`. -/
theorem everyAccessCompletesInOneStep : Obligations.EveryAccessCompletesInOneStep := by
  unfold Obligations.EveryAccessCompletesInOneStep
  exact fun s off => ⟨⟨_, rfl⟩, fun w => runEvent_write_completes off w s⟩

/-- Settles O22: bytes of BUF by `packed_getLsbD` and `readReg_buf2_getLsbD`, words of VALUE by their extracted bits. -/
theorem registerPacking : Obligations.RegisterPacking := by
  unfold Obligations.RegisterPacking
  intro s
  have hbyte (j : Nat) (hj : j < 4) : (readReg s .buf0).extractLsb' (8 * j) 8 = byteAt s.buf (0 + j) :=
    packed_byte s.buf (by decide) hj
  refine ⟨fun j hj i hi => ?_, fun j hj i hi => ?_, fun i _ => (readReg_buf2_getLsbD s i).symm, fun i _ => ?_,
    fun i hi => ?_, ?_⟩
  · have h : (readReg s .buf0).getLsbD (8 * j + i) = (byteAt s.buf (0 + j)).getLsbD i :=
      packed_getLsbD s.buf (by decide) hj hi
    rw [h, Nat.zero_add]
  · exact (packed_getLsbD s.buf (a := 4) (by decide) hj hi).symm
  · rw [readReg_buf2_getLsbD]
    exact BitVec.getLsbD_of_ge _ _ (by omega)
  · have h (k : Nat) : (s.value.extractLsb' k 32).getLsbD i = s.value.getLsbD (k + i) := by simp [hi]
    exact ⟨(h 0).trans (by rw [Nat.zero_add]), h 32, h 64, h 96⟩
  · simp only [wordBytes, List.cons.injEq, and_true]
    simp only [← byteAt_lt]
    exact ⟨hbyte 0 (by decide), hbyte 1 (by decide), hbyte 2 (by decide), hbyte 3 (by decide)⟩

/-- Settles O24: reads change no register, `writeReg_writeReg` makes a repeated write the same write, and ENCODE written
twice to CMD is accepted and then dropped. -/
theorem readsAndRepeatedWrites : Obligations.ReadsAndRepeatedWrites := by
  unfold Obligations.ReadsAndRepeatedWrites
  exact ⟨fun s off => ⟨_, runEvent_read_received s s.received off, runEvent_read_received s _ off⟩,
    fun s t off w ho h => runEvent_write_twice ho h,
    fun s off w ho hr => ⟨fun _ => runEvent_write_cmd w hr ho, fun hs =>
      runEvent_write_dropped w hr hs ((regAt_eq_cmd_iff _).mpr ho) rfl⟩,
    State.reset, _, _, 0x00000001, rfl, rfl, by decide⟩

end Sys2Proof.Machine
end

section
/-! PROOFS of spec/30_encoding.md: a command word is run by OP = w[1:0] alone (R68). The decoder keeps OP (`decodeWord_op`),
and OP fixes what the command does (`commandEffect_eq_of_op_eq`). -/

namespace Sys2Proof.Machine

/-- OP fixes the effect on an idle block, whatever RSV holds (30_encoding.md R67, R68). Unequal opcodes are refuted by their
values, so one row per opcode is left. -/
theorem commandEffect_eq_of_op_eq : ∀ {i j : Instr}, i.op = j.op → commandEffect i = commandEffect j
  | .nop _, .nop _, _ => rfl
  | .encode _, .encode _, _ => rfl
  | .decode _, .decode _, _ => rfl
  | .reserved _, .reserved _, _ => rfl

/-- Busy or not, commands of one opcode do the same (30_encoding.md R68). -/
theorem exec_eq_of_op_eq {i j : Instr} (h : i.op = j.op) (s : State) : exec i s = exec j s := by
  rw [exec_eq_onCommand, exec_eq_onCommand, commandEffect_eq_of_op_eq h]

/-- Settles O8: words with equal low bits decode to commands of one opcode (`decodeWord_op`). -/
theorem reservedCommandBitsIgnored : Obligations.ReservedCommandBitsIgnored := by
  unfold Obligations.ReservedCommandBitsIgnored
  intro w w' s hw
  have hop : (decodeWord w).op = (decodeWord w').op := by rw [decodeWord_op, decodeWord_op, hw]
  exact exec_eq_of_op_eq hop s

end Sys2Proof.Machine
end

section
/-! PROOFS of spec/40_commands.md: NOP (R77), the reserved opcode (R78) and the dispatch of a datapath step (R80). A command
is `exec_idle` or `exec_busy` at its row of `commandEffect`; a datapath step gets one equation per value of OPR. -/

namespace Sys2Proof.Machine

-- ==== Commands ====

/-- A command written while busy is dropped (20_memory.md R47). -/
theorem exec_busy (i : Instr) {s : State} (h : s.opr ≠ .none) : exec i s = .next (overrun s) := by
  rw [exec_eq_onCommand, onCommand_busy _ h]

/-- On an idle block the reserved opcode writes the result fields alone, for OPR is NONE already (40_commands.md R78). -/
theorem badCommand_idle {s : State} (h : s.opr = .none) :
    badCommand s = { s with done := true, err := true, ecode := 3, unterm := false, trail := false } := by
  simp [badCommand, completeError, clearResult, ErrorCode.code, h]

/-- The STATUS word that the reserved opcode leaves after reset: DONE, ERR and ECODE = 3 (40_commands.md R78). -/
theorem readReg_badCommand_reset_status : readReg (badCommand State.reset) .status = 0x00000036 := by decide

-- ==== A datapath step by the command in flight ====

/-- Idle, a datapath step changes nothing, whatever the level of rst. -/
theorem tick_idle {s : State} (ho : s.opr = .none) : tick s = .next s := by
  obtain ⟨-, h⟩ | ⟨-, he, -⟩ | ⟨-, hd, -⟩ := tick_cases (s := s) rfl
  · exact h
  · simp [ho] at he
  · simp [ho] at hd

theorem tick_enc {s : State} (hr : s.rst = false) (ho : s.opr = .enc) : tick s = encodeStep s := by
  simp [tick, hr, ho]

theorem tick_dec {s : State} (hr : s.rst = false) (ho : s.opr = .dec) : tick s = decodeStep s := by
  simp [tick, hr, ho]

-- ==== The obligations ====

/-- Settles O9: NOP's effect on an idle block is the identity, and a busy block drops it as any command. -/
theorem nopHasNoEffect : Obligations.NopHasNoEffect := by
  unfold Obligations.NopHasNoEffect
  exact fun r s => ⟨exec_idle (.nop r), exec_busy (.nop r)⟩

/-- Settles O10: the effect on an idle block is `badCommand`, whose fields `badCommand_idle` gives. -/
theorem reservedOpcodeCompletesAtOnce : Obligations.ReservedOpcodeCompletesAtOnce := by
  unfold Obligations.ReservedOpcodeCompletesAtOnce
  exact ⟨fun r s hs => badCommand_idle hs ▸ exec_idle (.reserved r) hs,
    fun r => ⟨badCommand State.reset, exec_idle (.reserved r) rfl, readReg_badCommand_reset_status⟩⟩

/-- Settles O32: one equation of `tick` for each value of OPR. -/
theorem tickByOperation : Obligations.TickByOperation := by
  unfold Obligations.TickByOperation
  exact fun s hr => ⟨tick_idle, tick_enc hr, tick_dec hr⟩

end Sys2Proof.Machine
end

section
/-! PROOFS of spec/41_encode.md: acceptance of ENCODE (R87), the range check (R88) and the emission of one byte (R89, R90).
The range check is `nb_le_iff` at nine groups; the steps are the branches of `encodeStep_cases`. -/

namespace Sys2Proof.Machine

-- ==== Acceptance ====

/-- The fields that acceptance of ENCODE writes (40_commands.md R76, 41_encode.md R87). -/
theorem acceptEncode_eq (s : State) :
    acceptEncode s = { s with
      done := false, err := false, ecode := 0, unterm := false, trail := false,
      opr := .enc, acc := s.value, idx := 0, wb := Vector.replicate 9 0x00 } := rfl

-- ==== The range check ====

/-- The hardware's form of the range test and the codec's: both say that the value is 2^63 or more (41_encode.md R88). -/
theorem highBits_ne_zero_iff (v : Wide) : v.extractLsb' 63 65 ≠ 0 ↔ nb v.toNat > 9 := by
  have hzero : v.extractLsb' 63 65 = 0#65 ↔ v.toNat < 2 ^ 63 := by
    have hv := v.isLt
    rw [← BitVec.toNat_inj, BitVec.extractLsb'_toNat, Nat.shiftRight_eq_div_pow, BitVec.toNat_zero]
    omega
  rw [ne_eq, BitVec.ofNat_eq_ofNat, hzero, ← nb_le_iff v.toNat (k := 9) (by decide), not_le]

/-- No ENCODE micro-step writes VALUE (41_encode.md R85). -/
theorem encodeStep_value {s t : State} (h : encodeStep s = .next t) : t.value = s.value := by
  obtain ⟨-, ht⟩ | ⟨_, -, -, ht⟩ | ⟨_, -, -, ht⟩ | ⟨-, -, ht⟩ := encodeStep_cases h <;> cases ht <;> rfl

-- ==== Byte emission ====

/-- The byte written to WB[IDX], with the spec's continuation-bit generator (41_encode.md R89). -/
theorem emitByte_wb (s : State) (last : Bool) (h : s.idx.toNat < 9) :
    (emitByte s last h).wb =
      s.wb.set s.idx.toNat ((s.acc.extractLsb' 0 7).setWidth 8 ||| (if last then 0x00 else 0x80)) h := by
  cases last <;> rfl

/-- Before the last byte a micro-step of an ENCODE that fits emits one byte and nothing more (41_encode.md R89). -/
theorem encodeStep_emits {s : State} (h : s.idx.toNat < 9) (hk : nb s.value.toNat ≤ 9)
    (hl : s.idx.toNat + 1 ≠ nb s.value.toNat) : encodeStep s = .next (emitByte s false h) := by
  obtain ⟨h9, -⟩ | ⟨_, -, hl', -⟩ | ⟨_, -, -, ht⟩ | ⟨-, hi, -⟩ := encodeStep_cases (s := s) rfl
  · omega
  · exact absurd hl' hl
  · exact ht
  · omega

/-- At the last byte it also commits (41_encode.md R90). -/
theorem encodeStep_commits {s : State} (h : s.idx.toNat < 9) (hl : s.idx.toNat + 1 = nb s.value.toNat) :
    encodeStep s = .next (finishEncode (nb s.value.toNat) (emitByte s true h)) := by
  obtain ⟨h9, -⟩ | ⟨_, -, -, ht⟩ | ⟨_, -, hl', -⟩ | ⟨-, hi, -⟩ := encodeStep_cases (s := s) rfl
  · omega
  · exact ht
  · exact absurd hl hl'
  · omega

-- ==== The obligations ====

/-- Settles O33: the two tests agree by `highBits_ne_zero_iff`, and the failing step is `tick_encode_out`. -/
theorem encodeRangeCheck : Obligations.EncodeRangeCheck := by
  unfold Obligations.EncodeRangeCheck
  intro s hr ho
  exact ⟨highBits_ne_zero_iff s.value,
    fun hbits => tick_encode_out hr ho ((highBits_ne_zero_iff s.value).mp hbits),
    fun t ht => encodeStep_value (tick_enc hr ho ▸ ht)⟩

/-- Settles O11: the effect on an idle block is `acceptEncode`, whose fields `acceptEncode_eq` gives. -/
theorem encodeAcceptance : Obligations.EncodeAcceptance := by
  unfold Obligations.EncodeAcceptance
  exact fun r s hs => acceptEncode_eq s ▸ exec_idle (.encode r) hs

/-- Settles O34: `emitByte_wb` gives the byte for both values of the last-byte flag, which selects the step's branch. -/
theorem encodeMicroStep : Obligations.EncodeMicroStep := by
  unfold Obligations.EncodeMicroStep
  intro s h hr ho hk last wb
  have hwb : (emitByte s last h).wb = wb := emitByte_wb s last h
  refine ⟨fun hl => ?_, fun hl => ?_⟩ <;> rw [hl] at hwb <;> rw [tick_enc hr ho, ← hwb]
  · exact encodeStep_emits h hk (of_decide_eq_false hl)
  · exact encodeStep_commits h (of_decide_eq_true hl)

end Sys2Proof.Machine
end

section
/-! PROOFS of spec/42_decode.md: acceptance of DECODE (R102) and its micro-step (R103 to R107). The two steps that end without
reading a byte are `tick_decode_out` and `tick_decode_end`; a byte's step is the branch of `decodeStep_cases` that its
continuation bit selects. -/

namespace Sys2Proof.Machine

-- ==== Acceptance ====

/-- The fields that acceptance of DECODE writes (40_commands.md R76, 42_decode.md R102). -/
theorem acceptDecode_eq (s : State) :
    acceptDecode s = { s with
      done := false, err := false, ecode := 0, unterm := false, trail := false,
      opr := .dec, acc := 0, idx := 0 } := rfl

-- ==== One byte ====

/-- A byte with its continuation bit set is accumulated, and the command stays in flight (42_decode.md R105, R107). -/
theorem decodeStep_continues {s : State} (hl : s.len.toNat ≤ 9) (hi : s.idx.toNat < s.len.toNat)
    (hc : continues (byteAt s.buf s.idx.toNat) = true) :
    decodeStep s = .next { s with
      acc := s.acc ||| placeChunk (byteAt s.buf s.idx.toNat) s.idx.toNat
      idx := s.idx + 1 } := by
  obtain ⟨h9, -⟩ | ⟨-, he, -⟩ | ⟨-, -, hc', -⟩ | ⟨-, -, -, ht⟩ | ⟨-, hgt, -⟩ := decodeStep_cases (s := s) rfl
  · omega
  · omega
  · simp [hc] at hc'
  · exact ht
  · omega

/-- The terminator is accumulated and gives VALUE and TRAIL (42_decode.md R105, R106). -/
theorem decodeStep_terminates {s : State} (hl : s.len.toNat ≤ 9) (hi : s.idx.toNat < s.len.toNat)
    (hc : continues (byteAt s.buf s.idx.toNat) = false) :
    decodeStep s = .next (completeOk { s with
      acc := s.acc ||| placeChunk (byteAt s.buf s.idx.toNat) s.idx.toNat
      value := s.acc ||| placeChunk (byteAt s.buf s.idx.toNat) s.idx.toNat
      trail := decide (s.idx.toNat + 1 < s.len.toNat) }) := by
  obtain ⟨h9, -⟩ | ⟨-, he, -⟩ | ⟨-, -, -, ht⟩ | ⟨-, -, hc', -⟩ | ⟨-, hgt, -⟩ := decodeStep_cases (s := s) rfl
  · omega
  · omega
  · exact ht
  · simp [hc] at hc'
  · omega

-- ==== The obligations ====

/-- Settles O12: the effect on an idle block is `acceptDecode`, whose fields `acceptDecode_eq` gives. -/
theorem decodeAcceptance : Obligations.DecodeAcceptance := by
  unfold Obligations.DecodeAcceptance
  exact fun r s hs => acceptDecode_eq s ▸ exec_idle (.decode r) hs

/-- Settles O35: one equation for each clause, two of `tick` and two of `decodeStep`, which `tick_dec` makes the datapath step. -/
theorem decodeMicroStep : Obligations.DecodeMicroStep := by
  unfold Obligations.DecodeMicroStep
  intro s hr ho
  exact ⟨tick_decode_out hr ho, tick_decode_end hr ho, fun hl hi =>
    ⟨fun hc => (tick_dec hr ho).trans (decodeStep_terminates hl hi hc),
      fun hc => (tick_dec hr ho).trans (decodeStep_continues hl hi hc)⟩⟩

end Sys2Proof.Machine
end

section
/-! PROOFS of spec/70_reset_and_hazards.md: a reset abandons the command in flight (R140, R141), and host accesses while rst
is asserted have no effect (R142). A reset's event has one equation, `runEvent_reset`, and a held access one for each kind,
`runEvent_read_held` and `runEvent_write_held`. -/

namespace Sys2Proof.Machine

/-- A reset takes every register to its reset value and ends with rst low; nothing of the command in flight is left
(70_reset_and_hazards.md R140). -/
theorem runEvent_reset (s : State) :
    runEvent .reset s =
      .next { State.reset with rst := false, pending := s.pending, received := s.received } := rfl

/-- While rst is asserted a read gives the word of the reset state (70_reset_and_hazards.md R142). -/
theorem runEvent_read_held {s : State} (off : BitVec 6) (hr : s.rst = true) :
    runEvent (.read off 4) s =
      .next { s with received := readWord State.reset (wordOffset off) :: s.received } := by
  simp only [runEvent, busRead_eq, if_pos hr]

/-- Settles O2: the step runs the first event to come (`step_cons`), a reset, and so ends with rst low. -/
theorem resetAbandonsCommand : Obligations.ResetAbandonsCommand := by
  unfold Obligations.ResetAbandonsCommand
  exact fun s _ hp => ⟨false, (step_cons hp).trans (runEvent_reset _)⟩

/-- Settles O3: a held write is ignored, and a held read sees the reset state. -/
theorem heldResetIgnoresAccesses : Obligations.HeldResetIgnoresAccesses := by
  unfold Obligations.HeldResetIgnoresAccesses
  exact fun s hr => ⟨fun off w => runEvent_write_held off w hr, fun off => runEvent_read_held off hr⟩

end Sys2Proof.Machine
end

section
/-! PROOFS of spec/30_encoding.md sections 1 and 2: the command word (R61, R67) and the varint format (R62 to R66). A varint is
its list of chunks: `chunkBits_getElem` reads chunk i off the value, `varint_getElem` rebuilds the byte from it, and so the value
and the length fix the varint. -/

namespace Sys2Proof

-- ==== Command words ====

theorem decodeWord_rsv (w : Word) : (decodeWord w).rsv = rsvField w := by
  unfold decodeWord
  split <;> rfl

theorem opField_encode (i : Instr) : opField (encode i) = i.op := by
  apply BitVec.eq_of_getLsbD_eq
  intro j hj
  simp [opField, encode_getLsbD, hj]

theorem rsvField_encode (i : Instr) : rsvField (encode i) = i.rsv := by
  apply BitVec.eq_of_getLsbD_eq
  intro j hj
  simp [rsvField, encode_getLsbD, hj, show ¬2 + j < 2 by omega]

theorem decodeWord_encode (i : Instr) : decodeWord (encode i) = i := by
  rw [decodeWord, opField_encode, rsvField_encode]
  cases i <;> rfl

theorem encode_decodeWord (w : Word) : encode (decodeWord w) = w := by
  apply BitVec.eq_of_getLsbD_eq
  intro j hj
  rw [encode_getLsbD, Machine.decodeWord_op, decodeWord_rsv, rsvField]
  by_cases h : j < 2
  · simp [h]
  · simp [h, show j - 2 < 30 by omega, show 2 + (j - 2) = j by omega]

theorem decodeTableWord_toNat (w : Word) : decodeTableWord 32 w.toNat = some (decodeWord w) := by
  have hw : BitVec.ofNat 32 (w.toNat % 2 ^ 32) = w := by rw [Nat.mod_eq_of_lt w.isLt, BitVec.ofNat_toNat, BitVec.setWidth_eq]
  rw [decodeTableWord, if_pos le_rfl, hw, decodeBytes_wordBytes]
  rfl

/-- Every instruction encodes into the table's row of its own mnemonic and no other. -/
theorem covers_encode_iff (i : Instr) : Laws.TableRow.Statement i := by
  cases i with
  | nop r => exact Laws.TableRow.nop r
  | encode r => exact Laws.TableRow.encode r
  | decode r => exact Laws.TableRow.decode r
  | reserved r => exact Laws.TableRow.reserved r

/-- Settles O7: encoder and decoder are inverse, OP and RSV being the two parts of the word; a word is the encoding of its
decoding, so its row is `covers_encode_iff`. -/
theorem decodeEncodeAgree : Obligations.DecodeEncodeAgree := by
  unfold Obligations.DecodeEncodeAgree
  refine ⟨decodeWord_encode, encode_decodeWord, fun i => ?_, fun i => ?_, fun w r hr => ?_⟩
  · rw [decodeBytes_wordBytes, decodeWord_encode]
  · rw [decodeTableWord_toNat, decodeWord_encode]
  · have h := covers_encode_iff (decodeWord w) r hr
    rw [encode_decodeWord] at h
    exact h.trans eq_comm

/-- Settles O6: the words are evaluated. -/
theorem sampleCommandWordsDecode : Obligations.SampleCommandWordsDecode := by
  unfold Obligations.SampleCommandWordsDecode
  decide

namespace Machine

-- ==== The value of a sequence of bytes ====

theorem varintValue_lt (l : List Byte) : varintValue l < 2 ^ (7 * l.length) := by
  induction l with
  | nil => simp [varintValue]
  | cons b l ih =>
    have hb : (chunkBits b).toNat < 2 ^ 7 := (chunkBits b).isLt
    rw [varintValue, List.length_cons, Nat.mul_succ, Nat.pow_add]
    omega

theorem varintValue_concat (l : List Byte) (b : Byte) :
    varintValue (l ++ [b]) = varintValue l + 2 ^ (7 * l.length) * (chunkBits b).toNat := by
  induction l with
  | nil => simp [varintValue]
  | cons c l ih =>
    rw [List.cons_append, varintValue, ih, varintValue, List.length_cons, Nat.mul_succ, Nat.pow_add]
    ring

/-- Chunk i of a sequence is bits 7i+6:7i of its value (30_encoding.md R62, R63). -/
theorem chunkBits_getElem (l : List Byte) {i : Nat} (h : i < l.length) :
    (chunkBits l[i]).toNat = varintValue l / 2 ^ (7 * i) % 2 ^ 7 := by
  induction l generalizing i with
  | nil => simp at h
  | cons b l ih =>
    have hb : (chunkBits b).toNat < 2 ^ 7 := (chunkBits b).isLt
    cases i with
    | zero => simp [varintValue]; omega
    | succ i =>
      have hdiv : varintValue (b :: l) / 2 ^ 7 = varintValue l := by rw [varintValue]; omega
      rw [Nat.mul_succ, Nat.add_comm (7 * i), Nat.pow_add, ← Nat.div_div_eq_div_mul, hdiv]
      exact ih (by simpa using h)

theorem chunkOf_toNat (n : Wide) (k : Nat) : (chunkOf n k).toNat = n.toNat / 2 ^ (7 * k) % 2 ^ 7 := by
  rw [chunkOf, BitVec.extractLsb'_toNat, Nat.shiftRight_eq_div_pow]

-- ==== Well-formed varints ====

/-- A varint has 1 to 9 bytes, and every byte but its last continues (30_encoding.md R63, R64). -/
theorem isVarint_iff (l : List Byte) :
    isVarint l = true ↔
      l ≠ [] ∧ l.length ≤ 9 ∧ ∀ i (h : i < l.length), continues l[i] = decide (i + 1 < l.length) := by
  induction l using isVarint.induct with
  | case1 => simp [isVarint]
  | case2 b => simp [isVarint]
  | case3 b c rest ih =>
    rw [isVarint, Bool.and_eq_true, Bool.and_eq_true, ih, decide_eq_true_iff]
    constructor
    · rintro ⟨⟨hb, -, -, hc⟩, hlen⟩
      refine ⟨by simp, hlen, fun i h => ?_⟩
      cases i with
      | zero => simpa using hb
      | succ i => simpa using hc i (by simpa using h)
    · rintro ⟨-, hlen, hc⟩
      refine ⟨⟨by simpa using hc 0 (Nat.succ_pos _), by simp, Nat.le_of_succ_le hlen, fun i h => ?_⟩, hlen⟩
      simpa using hc (i + 1) (Nat.succ_lt_succ h)

/-- Byte i of a varint of value n is fixed by n and the varint's length. -/
theorem varint_getElem {l : List Byte} (hl : isVarint l = true) {n : Wide} (hn : varintValue l = n.toNat) {i : Nat}
    (h : i < l.length) : l[i] = mkByte (decide (i + 1 < l.length)) (chunkOf n i) := by
  obtain ⟨-, -, hc⟩ := (isVarint_iff l).mp hl
  have hchunk : chunkBits l[i] = chunkOf n i := by
    apply BitVec.eq_of_toNat_eq
    rw [chunkBits_getElem l h, chunkOf_toNat, hn]
  rw [← mkByte_eta l[i], hc i h, hchunk]

/-- A varint of value n is at least nb(n) long. -/
theorem nb_le_length {l : List Byte} (hl : isVarint l = true) {n : Nat} (hn : varintValue l = n) : nb n ≤ l.length := by
  obtain ⟨hne, -, -⟩ := (isVarint_iff l).mp hl
  exact (nb_le_iff n (List.length_pos_iff.mpr hne)).mpr (hn ▸ varintValue_lt l)

/-- With more than one byte and a non-zero last chunk it is nb(n) long. -/
theorem length_le_nb {l : List Byte} {n : Nat} (hn : varintValue l = n) {b : Byte} (hb : l.getLast? = some b)
    (hne : chunkBits b ≠ 0) : l.length ≤ nb n := by
  by_contra hlt
  have hpos := one_le_nb n
  have hsmall : varintValue l < 2 ^ (7 * (l.length - 1)) := by
    rw [hn, ← nb_le_iff n (by omega)]
    omega
  have hlast := chunkBits_getElem l (i := l.length - 1) (by omega)
  rw [Nat.div_eq_of_lt hsmall] at hlast
  rw [List.getLast?_eq_getElem?, List.getElem?_eq_getElem (by omega)] at hb
  obtain rfl := Option.some.inj hb
  exact hne (BitVec.eq_of_toNat_eq hlast)

-- ==== enc ====

@[simp] theorem enc_length (n : Wide) : (enc n).length = nb n.toNat := by simp [enc]

theorem enc_getElem (n : Wide) {i : Nat} (h : i < (enc n).length) : (enc n)[i] = encByte n i := by simp [enc]

/-- The first k bytes of an encoding hold the low 7k bits of the value. -/
theorem varintValue_encBytes (n : Wide) (k : Nat) :
    varintValue ((List.range k).map (encByte n)) = n.toNat % 2 ^ (7 * k) := by
  induction k with
  | zero => simp [varintValue, Nat.mod_one]
  | succ k ih =>
    rw [List.range_succ, List.map_append, List.map_singleton, varintValue_concat, ih, encByte, chunkBits_mkByte, chunkOf_toNat,
      List.length_map, List.length_range, Nat.mul_succ, Nat.pow_add, Nat.mod_mul]

theorem varintValue_enc (n : Wide) : varintValue (enc n) = n.toNat := by
  rw [enc, varintValue_encBytes, Nat.mod_eq_of_lt (lt_two_pow_nb _)]

theorem isVarint_enc {n : Wide} (hn : n.toNat < 2 ^ 63) : isVarint (enc n) = true := by
  have hpos := one_le_nb n.toNat
  refine (isVarint_iff _).mpr ⟨?_, ?_, fun i h => ?_⟩
  · exact List.ne_nil_of_length_pos (by rw [enc_length]; omega)
  · rw [enc_length]; exact (nb_le_iff n.toNat (k := 9) (by decide)).mpr hn
  · rw [enc_getElem, encByte, continues_mkByte, enc_length]

/-- The last chunk of enc(n) is non-zero for n ≠ 0: nb(n) is the least number of groups (30_encoding.md R66). -/
theorem chunkOf_last_ne_zero {n : Wide} (hn : n ≠ 0) : chunkOf n (nb n.toNat - 1) ≠ 0 := by
  have hpos := one_le_nb n.toNat
  have hge : 2 ^ (7 * (nb n.toNat - 1)) ≤ n.toNat := by
    by_cases h1 : nb n.toNat = 1
    · have h0 : n.toNat ≠ 0 := fun h0 => hn (BitVec.eq_of_toNat_eq h0)
      rw [h1]; omega
    · rw [← not_lt, ← nb_le_iff _ (by omega)]
      omega
  have hlt : n.toNat < 2 ^ (7 * (nb n.toNat - 1)) * 2 ^ 7 := by
    rw [← Nat.pow_add, show 7 * (nb n.toNat - 1) + 7 = 7 * nb n.toNat by omega]
    exact lt_two_pow_nb _
  have hdiv : 0 < n.toNat / 2 ^ (7 * (nb n.toNat - 1)) := Nat.div_pos hge (by positivity)
  intro h
  have hzero : (chunkOf n (nb n.toNat - 1)).toNat = 0 := by rw [h]; rfl
  rw [chunkOf_toNat, Nat.mod_eq_of_lt (Nat.div_lt_of_lt_mul hlt)] at hzero
  omega

theorem enc_getLast? (n : Wide) : (enc n).getLast? = some (encByte n (nb n.toNat - 1)) := by
  have hpos := one_le_nb n.toNat
  rw [List.getLast?_eq_getElem?, enc_length, List.getElem?_eq_getElem (by rw [enc_length]; omega), enc_getElem]

theorem enc_zero : enc 0 = [0x00] := by decide

/-- The varint of value n and length nb(n) is enc(n). -/
theorem eq_enc_of_length {l : List Byte} (hl : isVarint l = true) {n : Wide} (hn : varintValue l = n.toNat)
    (hlen : l.length = nb n.toNat) : l = enc n := by
  apply List.ext_getElem (by rw [hlen, enc_length])
  intro i h _
  rw [varint_getElem hl hn h, enc_getElem, encByte, hlen]

/-- Settles O38: each clause is a lemma about `enc`. -/
theorem encIsVarintOfValue : Obligations.EncIsVarintOfValue := by
  unfold Obligations.EncIsVarintOfValue
  refine fun n hn => ⟨enc_length n, isVarint_enc hn, varintValue_enc n, fun i h => ?_⟩
  rw [enc_getElem, encByte, chunkBits_mkByte, chunkOf]

/-- Settles O39: a varint of value n has nb(n) bytes or more (`nb_le_length`); with one byte or a non-zero last chunk it has
exactly nb(n), and then it is enc(n) (`eq_enc_of_length`). -/
theorem encIsMinimalAndUnique : Obligations.EncIsMinimalAndUnique := by
  unfold Obligations.EncIsMinimalAndUnique
  refine fun n _ => ⟨fun hn => ⟨_, enc_getLast? n, ?_⟩, fun hn => hn ▸ enc_zero, fun l hl hv => ?_⟩
  · rw [encByte, chunkBits_mkByte]
    exact chunkOf_last_ne_zero hn
  · have hle := nb_le_length hl hv
    refine ⟨by rw [enc_length]; exact hle, fun h => eq_enc_of_length hl hv (le_antisymm ?_ hle)⟩
    obtain h1 | ⟨b, hb, hne⟩ := h
    · exact h1 ▸ one_le_nb n.toNat
    · exact length_le_nb hv hb hne

end Machine

end Sys2Proof
end

section
/-! PROOFS of spec/42_decode.md section 3: what dec gives (R101, R109 to R112). dec is the case split on the first terminator,
so each statement is one use of `dec_of_terminator` or `dec_unterminated`; on a varint the terminator is its last byte and the
sum of its chunks is its value. -/

namespace Sys2Proof.Machine

-- ==== dec by its terminator ====

theorem dec_outOfRange {b : Bytes9} {l : Nat} (hl : l > 9) : dec b l = .outOfRange := if_pos hl

theorem dec_of_terminator {b : Bytes9} {l t : Nat} (hl : l ≤ 9) (ht : terminator b l = some t) :
    dec b l = .ok (chunkSum b (t + 1)) false (decide (t + 1 < l)) := by
  simp [dec, ht, show ¬l > 9 by omega]

theorem dec_unterminated {b : Bytes9} {l : Nat} (hl : l ≤ 9) (ht : terminator b l = none) : dec b l = .ok 0 true false := by
  simp [dec, ht, show ¬l > 9 by omega]

/-- Everything dec can give (42_decode.md R101). -/
theorem dec_cases (b : Bytes9) (l : Nat) :
    (l > 9 ∧ dec b l = .outOfRange) ∨
    (l ≤ 9 ∧ ∃ t, terminator b l = some t ∧ dec b l = .ok (chunkSum b (t + 1)) false (decide (t + 1 < l))) ∨
    (l ≤ 9 ∧ terminator b l = none ∧ dec b l = .ok 0 true false) := by
  by_cases hl : l > 9
  · exact .inl ⟨hl, dec_outOfRange hl⟩
  · have hl : l ≤ 9 := not_lt.mp hl
    cases ht : terminator b l with
    | some t => exact .inr (.inl ⟨hl, t, rfl, dec_of_terminator hl ht⟩)
    | none => exact .inr (.inr ⟨hl, rfl, dec_unterminated hl ht⟩)

-- ==== dec of a varint ====

/-- The sum of the first t chunks is the value of the first t bytes (30_encoding.md R63). -/
theorem chunkSum_eq_varintValue (b : Bytes9) {t : Nat} (h : t ≤ 9) :
    (chunkSum b t).toNat = varintValue ((List.range t).map (byteAt b)) := by
  induction t with
  | zero => rfl
  | succ t ih =>
    rw [chunkSum_succ_toNat b h, ih (by omega), List.range_succ, List.map_append, List.map_singleton, varintValue_concat,
      List.length_map, List.length_range, Nat.mul_comm (chunkBits _).toNat]

theorem byteAt_padded_append (l rest : List Byte) {i : Nat} (h : i < l.length) (h9 : i < 9) :
    byteAt (padded (l ++ rest)) i = l[i] := by
  simp [byteAt_padded _ h9, List.getD_eq_getElem?_getD, List.getElem?_append_left h, h]

/-- In a buffer that begins with a varint the terminator is the varint's last byte (30_encoding.md R64). -/
theorem terminator_padded_append {l : List Byte} (hl : isVarint l = true) (rest : List Byte) :
    terminator (padded (l ++ rest)) (l.length + rest.length) = some (l.length - 1) := by
  obtain ⟨hne, h9, hc⟩ := (isVarint_iff l).mp hl
  have hpos := List.length_pos_iff.mpr hne
  have hcont : ∀ i < l.length, continues (byteAt (padded (l ++ rest)) i) = decide (i + 1 < l.length) := by
    intro i hi
    rw [byteAt_padded_append l rest hi (by omega), hc i hi]
  refine (terminator_some_iff _ _ _).mpr ⟨by omega, ?_, fun j hj => ?_⟩
  · rw [hcont _ (by omega), decide_eq_false_iff_not]; omega
  · rw [hcont _ (by omega), decide_eq_true_iff]; omega

theorem chunkSum_padded_append {l : List Byte} (h9 : l.length ≤ 9) (rest : List Byte) :
    chunkSum (padded (l ++ rest)) l.length = BitVec.ofNat 128 (varintValue l) := by
  have hbytes : (List.range l.length).map (byteAt (padded (l ++ rest))) = l := by
    apply List.ext_getElem (by simp)
    intro i _ h
    rw [List.getElem_map, List.getElem_range, byteAt_padded_append l rest h (by omega)]
  rw [← hbytes, ← chunkSum_eq_varintValue _ (by simpa using h9), hbytes, BitVec.ofNat_toNat, BitVec.setWidth_eq]

theorem dec_padded_append {l : List Byte} (hl : isVarint l = true) {rest : List Byte} (h9 : l.length + rest.length ≤ 9) :
    dec (padded (l ++ rest)) (l.length + rest.length) =
      .ok (BitVec.ofNat 128 (varintValue l)) false (decide (rest ≠ [])) := by
  obtain ⟨hne, -, -⟩ := (isVarint_iff l).mp hl
  have hpos := List.length_pos_iff.mpr hne
  rw [dec_of_terminator h9 (terminator_padded_append hl rest), Nat.sub_add_cancel hpos,
    chunkSum_padded_append (by omega) rest]
  simp [List.length_pos_iff]

-- ==== Bytes that dec reads ====

/-- Buffers alike on every byte that dec looks at are alike up to the terminator (42_decode.md R112). -/
theorem byteAt_eq_of_scanned {b b' : Bytes9} {l t : Nat}
    (h : ∀ i < l, (∀ j < i, continues (byteAt b j) = true) → byteAt b i = byteAt b' i) (ht : t < l)
    (hc : ∀ j < t, continues (byteAt b j) = true) : ∀ j < t + 1, byteAt b j = byteAt b' j :=
  fun j hj => h j (by omega) fun i hi => hc i (by omega)

-- ==== The obligations ====

/-- Settles O40: the terminator is the varint's last byte, and what follows it is the tail. -/
theorem decOfVarintWithTail : Obligations.DecOfVarintWithTail := by
  unfold Obligations.DecOfVarintWithTail
  exact fun l rest hl h9 => dec_padded_append hl h9

/-- Settles O41: each clause compares the three cases of `dec_cases`. -/
theorem decOutOfRangeAndUnterminated : Obligations.DecOutOfRangeAndUnterminated := by
  unfold Obligations.DecOutOfRangeAndUnterminated
  intro b l
  have hnone : (∀ i < l, (byteAt b i).getLsbD 7 = true) ↔ terminator b l = none := (terminator_none_iff b l).symm
  rw [hnone]
  obtain ⟨hl, hd⟩ | ⟨hl, t, ht, hd⟩ | ⟨hl, ht, hd⟩ := dec_cases b l
  · simp [hd, hl]
  · simp [hd, ht, hl]
  · simp [hd, ht, hl]

/-- Settles O42: at most nine chunks are summed (`chunkSum_lt`), and each result of dec sets one of the two flags at most. -/
theorem decResultRange : Obligations.DecResultRange := by
  unfold Obligations.DecResultRange
  intro b l v unterm trail h
  obtain ⟨hl, hd⟩ | ⟨hl, t, ht, hd⟩ | ⟨hl, ht, hd⟩ := dec_cases b l <;> rw [hd] at h <;> cases h
  · obtain ⟨htl, -, -⟩ := (terminator_some_iff b l t).mp ht
    have hlt : 2 ^ (7 * (t + 1)) ≤ 2 ^ 63 := Nat.pow_le_pow_right (by decide) (by omega)
    exact ⟨(chunkSum_lt b (by omega)).trans_le hlt, by simp, by simp⟩
  · simp

/-- Settles O43: the buffers have the same terminator, and the same chunks up to it. -/
theorem decReadsOnlyScannedBytes : Obligations.DecReadsOnlyScannedBytes := by
  unfold Obligations.DecReadsOnlyScannedBytes
  intro b b' l h
  obtain ⟨hl, hd⟩ | ⟨hl, t, ht, hd⟩ | ⟨hl, ht, hd⟩ := dec_cases b l <;> rw [hd]
  · rw [dec_outOfRange hl]
  · obtain ⟨htl, hend, hc⟩ := (terminator_some_iff b l t).mp ht
    have heq := byteAt_eq_of_scanned (fun i => h i hl) htl hc
    have ht' : terminator b' l = some t :=
      (terminator_some_iff b' l t).mpr ⟨htl, heq t (by omega) ▸ hend, fun j hj => heq j (by omega) ▸ hc j hj⟩
    rw [dec_of_terminator hl ht', chunkSum_congr heq]
  · have hc := (terminator_none_iff b l).mp ht
    have ht' : terminator b' l = none :=
      (terminator_none_iff b' l).mpr fun j hj => h j hl hj (fun i hi => hc i (by omega)) ▸ hc j hj
    rw [dec_unterminated hl ht']

end Sys2Proof.Machine
end

section
/-! PROOFS of spec/41_encode.md section 3 and spec/42_decode.md section 3: whole commands against their architectural rules
(R85, R100, R114). A command in flight (`InFlight`) has a number of datapath steps left (`stepsLeft`) and a result fixed by its
operands (`archResult`). What one datapath step does is said once (`InFlight.tick`): one step fewer is left and the operands and
the result stay, or it was the last and the result is there. Completion follows by induction on the steps left. -/

namespace Sys2Proof.Machine

-- ==== A command in flight ====

/-- A command in flight with rst low: its shifter or accumulator is where its scan is, its results are cleared. -/
structure InFlight (s : State) : Prop where
  rst_low : s.rst = false
  cleared : clearResult s = s
  work : (s.opr = .enc ∧ EncodeInv s) ∨ (s.opr = .dec ∧ DecodeInv s)

/-- The datapath steps left until completion (41_encode.md R96, 42_decode.md R116). -/
def stepsLeft (s : State) : Nat :=
  match s.opr with
  | .none => 0
  | .enc => encodeSteps s - s.idx.toNat
  | .dec => decodeSteps s - s.idx.toNat

/-- What the command in flight gives by its architectural rule (41_encode.md R85, 42_decode.md R100). -/
def archResult (s : State) : State :=
  match s.opr with
  | .none => s
  | .enc => archEncode s
  | .dec => archDecode s

theorem stepsLeft_idle {s : State} (ho : s.opr = .none) : stepsLeft s = 0 := by simp [stepsLeft, ho]
theorem stepsLeft_enc {s : State} (ho : s.opr = .enc) : stepsLeft s = encodeSteps s - s.idx.toNat := by simp [stepsLeft, ho]
theorem stepsLeft_dec {s : State} (ho : s.opr = .dec) : stepsLeft s = decodeSteps s - s.idx.toNat := by simp [stepsLeft, ho]
theorem archResult_enc {s : State} (ho : s.opr = .enc) : archResult s = archEncode s := by simp [archResult, ho]
theorem archResult_dec {s : State} (ho : s.opr = .dec) : archResult s = archDecode s := by simp [archResult, ho]

theorem InFlight.busy {s : State} (h : InFlight s) : s.opr ≠ .none := by
  obtain ⟨ho, -⟩ | ⟨ho, -⟩ := h.work <;> simp [ho]

-- ==== The architectural rules by their cases ====

theorem archEncode_out {s : State} (h : nb s.value.toNat > 9) : archEncode s = completeError .encOutOfRange (clearResult s) := by
  have hv : 2 ^ 63 ≤ s.value.toNat := by
    rw [← not_lt, ← nb_le_iff _ (k := 9) (by decide)]
    omega
  exact if_pos hv

theorem archEncode_fits {s : State} (h : nb s.value.toNat ≤ 9) :
    archEncode s =
      completeOk { clearResult s with buf := encBuf s.value, len := BitVec.ofNat 32 (nb s.value.toNat) } :=
  if_neg (not_le.mpr ((nb_le_iff _ (k := 9) (by decide)).mp h))

theorem encodeSteps_out {s : State} (h : nb s.value.toNat > 9) : encodeSteps s = 1 := by
  refine if_neg fun hv => ?_
  have := (nb_le_iff s.value.toNat (k := 9) (by decide)).mpr hv
  omega

theorem encodeSteps_fits {s : State} (h : nb s.value.toNat ≤ 9) : encodeSteps s = nb s.value.toNat :=
  if_pos ((nb_le_iff _ (k := 9) (by decide)).mp h)

theorem encodeSteps_le (s : State) : encodeSteps s ≤ 9 := by
  by_cases h : nb s.value.toNat ≤ 9
  · rw [encodeSteps_fits h]; exact h
  · rw [encodeSteps_out (not_le.mp h)]; decide

theorem archDecode_out {s : State} (h : s.len.toNat > 9) : archDecode s = completeError .decOutOfRange (clearResult s) := by
  simp [archDecode, dec_outOfRange h]

theorem archDecode_ok {s : State} {v : Wide} {u t : Bool} (h : dec s.buf s.len.toNat = .ok v u t) :
    archDecode s = completeOk { clearResult s with value := v, unterm := u, trail := t } := by
  simp [archDecode, h]

theorem decodeSteps_out {s : State} (h : s.len.toNat > 9) : decodeSteps s = 1 := if_pos h

theorem decodeSteps_terminator {s : State} {t : Nat} (hl : s.len.toNat ≤ 9) (ht : terminator s.buf s.len.toNat = some t) :
    decodeSteps s = t + 1 := by
  simp [decodeSteps, ht, not_lt.mpr hl]

theorem decodeSteps_unterminated {s : State} (hl : s.len.toNat ≤ 9) (ht : terminator s.buf s.len.toNat = none) :
    decodeSteps s = s.len.toNat + 1 := by
  simp [decodeSteps, ht, not_lt.mpr hl]

theorem decodeSteps_le (s : State) : decodeSteps s ≤ 10 := by
  by_cases hl : s.len.toNat ≤ 9
  · cases ht : terminator s.buf s.len.toNat with
    | some t =>
      obtain ⟨htl, -, -⟩ := (terminator_some_iff _ _ _).mp ht
      rw [decodeSteps_terminator hl ht]; omega
    | none => rw [decodeSteps_unterminated hl ht]; omega
  · rw [decodeSteps_out (not_le.mp hl)]; decide

/-- A DECODE is still in flight while the bytes it has scanned continue. -/
theorem lt_decodeSteps {s : State} {k : Nat} (hl : s.len.toNat ≤ 9) (hk : k ≤ s.len.toNat)
    (hc : ∀ j < k, continues (byteAt s.buf j) = true) : k < decodeSteps s := by
  cases ht : terminator s.buf s.len.toNat with
  | some t =>
    obtain ⟨-, hend, -⟩ := (terminator_some_iff _ _ _).mp ht
    rw [decodeSteps_terminator hl ht]
    by_contra hlt
    simp [hc t (by omega)] at hend
  | none => rw [decodeSteps_unterminated hl ht]; omega

theorem stepsLeft_le (s : State) : stepsLeft s ≤ 10 := by
  have he := encodeSteps_le s
  have hd := decodeSteps_le s
  cases ho : s.opr
  · rw [stepsLeft_idle ho]; omega
  · rw [stepsLeft_enc ho]; omega
  · rw [stepsLeft_dec ho]; omega

-- ==== What a result does not depend on ====

/-- s with the fields of u that no architectural rule reads: the internal registers, OVR, and the host's own. -/
def withHidden (u s : State) : State :=
  { s with acc := u.acc, idx := u.idx, wb := u.wb, ovr := u.ovr, pending := u.pending, received := u.received }

theorem eq_withHidden {s t : State} (h : withoutHost t = withoutHost s) : t = withHidden t s := by
  cases t; cases s; simp_all [withoutHost, State.visible, withHidden]

theorem withoutHost_eq_of_visible {s t : State} (h : t.visible = s.visible) : withoutHost t = withoutHost s :=
  congrArg (fun x => { x with ovr := false, received := [], pending := [] }) h

theorem archEncode_withHidden (u s : State) : archEncode (withHidden u s) = withHidden u (archEncode s) := by
  by_cases h : nb s.value.toNat ≤ 9
  · rw [archEncode_fits (s := s) h]; exact archEncode_fits h
  · rw [archEncode_out (s := s) (not_le.mp h)]; exact archEncode_out (not_le.mp h)

theorem archDecode_withHidden (u s : State) : archDecode (withHidden u s) = withHidden u (archDecode s) := by
  obtain ⟨hl, -⟩ | ⟨-, _, -, hd⟩ | ⟨-, -, hd⟩ := dec_cases s.buf s.len.toNat
  · rw [archDecode_out (s := s) hl]; exact archDecode_out hl
  · rw [archDecode_ok (s := s) hd]; exact archDecode_ok hd
  · rw [archDecode_ok (s := s) hd]; exact archDecode_ok hd

theorem archResult_withHidden (u s : State) : archResult (withHidden u s) = withHidden u (archResult s) := by
  have hop : (withHidden u s).opr = s.opr := rfl
  cases ho : s.opr <;> rw [ho] at hop
  · simp only [archResult, ho, hop]
  · rw [archResult_enc ho, archResult_enc hop, archEncode_withHidden]
  · rw [archResult_dec ho, archResult_dec hop, archDecode_withHidden]

theorem archResult_withoutHost {s t : State} (h : withoutHost t = withoutHost s) :
    withoutHost (archResult t) = withoutHost (archResult s) := by
  rw [eq_withHidden h, archResult_withHidden]; rfl

/-- ACC, IDX and WB leave the visible result alone (10_state.md R30). -/
theorem archResult_visible {s t : State} (h : t.visible = s.visible) : (archResult t).visible = (archResult s).visible := by
  obtain ⟨a, i, w, rfl⟩ := visible_eq_form h
  have ht := congrArg State.visible (archResult_withHidden { s with acc := a, idx := i, wb := w } s)
  have hs := congrArg State.visible (archResult_withHidden s s)
  exact ht.trans hs.symm

@[simp] theorem archEncode_opr (s : State) : (archEncode s).opr = .none := by
  by_cases h : nb s.value.toNat ≤ 9
  · rw [archEncode_fits h]; rfl
  · rw [archEncode_out (not_le.mp h)]; rfl

@[simp] theorem archDecode_opr (s : State) : (archDecode s).opr = .none := by
  obtain ⟨hl, -⟩ | ⟨-, _, -, hd⟩ | ⟨-, -, hd⟩ := dec_cases s.buf s.len.toNat
  · rw [archDecode_out hl]; rfl
  · rw [archDecode_ok hd]; rfl
  · rw [archDecode_ok hd]; rfl

@[simp] theorem archResult_opr (s : State) : (archResult s).opr = .none := by
  cases ho : s.opr
  · simp [archResult, ho]
  · rw [archResult_enc ho, archEncode_opr]
  · rw [archResult_dec ho, archDecode_opr]

theorem encodeSteps_visible {s t : State} (h : t.visible = s.visible) : encodeSteps t = encodeSteps s := by
  obtain ⟨a, i, w, rfl⟩ := visible_eq_form h; rfl

theorem decodeSteps_visible {s t : State} (h : t.visible = s.visible) : decodeSteps t = decodeSteps s := by
  obtain ⟨a, i, w, rfl⟩ := visible_eq_form h; rfl

-- ==== One datapath step ====

/-- The step that is not the last: one fewer is left, and only the internal registers changed. -/
def StepsOn (s t : State) : Prop := InFlight t ∧ stepsLeft t + 1 = stepsLeft s ∧ t.visible = s.visible

/-- The last step: the result is there. -/
def Lands (s t : State) : Prop := stepsLeft s = 1 ∧ t.visible = (archResult s).visible

theorem InFlight.of_visible {s t : State} (h : InFlight s) (hv : t.visible = s.visible)
    (hw : (t.opr = .enc ∧ EncodeInv t) ∨ (t.opr = .dec ∧ DecodeInv t)) : InFlight t := by
  have hr := h.rst_low
  have hc := h.cleared
  obtain ⟨a, i, w, rfl⟩ := visible_eq_form hv
  exact ⟨hr, congrArg (fun x => { x with acc := a, idx := i, wb := w }) hc, hw⟩

theorem tick_encode {s : State} (h : InFlight s) (ho : s.opr = .enc) (hi : EncodeInv s) :
    ∃ t, tick s = .next t ∧ (StepsOn s t ∨ Lands s t) := by
  have hlt := hi.idx_lt
  by_cases h9 : nb s.value.toNat ≤ 9
  · by_cases hmid : s.idx.toNat + 1 < nb s.value.toNat
    · obtain ⟨t, ht, hv, hit, hot, hidx⟩ := tick_encode_mid h.rst_low ho hi h9 hmid
      refine ⟨t, ht, .inl ⟨h.of_visible hv (.inl ⟨hot, hit⟩), ?_, hv⟩⟩
      rw [stepsLeft_enc hot, stepsLeft_enc ho, encodeSteps_visible hv, encodeSteps_fits h9, hidx]
      omega
    · have hlast : s.idx.toNat + 1 = nb s.value.toNat := by omega
      obtain ⟨t, ht, hv, -⟩ := tick_encode_last h.rst_low ho hi h9 hlast
      refine ⟨t, ht, .inr ⟨?_, ?_⟩⟩
      · rw [stepsLeft_enc ho, encodeSteps_fits h9]; omega
      · rw [hv, archResult_enc ho, archEncode_fits h9, h.cleared]
  · have h9 := not_le.mp h9
    refine ⟨_, tick_encode_out h.rst_low ho h9, .inr ⟨?_, ?_⟩⟩
    · rw [stepsLeft_enc ho, encodeSteps_out h9, hi.first h9]; rfl
    · rw [archResult_enc ho, archEncode_out h9, h.cleared]

theorem tick_decode {s : State} (h : InFlight s) (ho : s.opr = .dec) (hi : DecodeInv s) :
    ∃ t, tick s = .next t ∧ (StepsOn s t ∨ Lands s t) := by
  have hle := hi.idx_le
  have hut : s.unterm = false := congrArg State.unterm h.cleared.symm
  have htr : s.trail = false := congrArg State.trail h.cleared.symm
  by_cases hl : s.len.toNat ≤ 9
  · by_cases hend : s.idx.toNat = s.len.toNat
    · have hterm : terminator s.buf s.len.toNat = none := (terminator_none_iff _ _).mpr (hend ▸ hi.scanned)
      refine ⟨_, tick_decode_end h.rst_low ho hl hend, .inr ⟨?_, ?_⟩⟩
      · rw [stepsLeft_dec ho, decodeSteps_unterminated hl hterm]; omega
      · rw [archResult_dec ho, archDecode_ok (dec_unterminated hl hterm), h.cleared, ← htr]
    · have hlt : s.idx.toNat < s.len.toNat := by omega
      cases hc : continues (byteAt s.buf s.idx.toNat) with
      | true =>
        obtain ⟨t, ht, hv, hit, hot, hidx⟩ := tick_decode_mid h.rst_low ho hi hl hlt hc
        have hmore : s.idx.toNat + 1 < decodeSteps s := by
          refine lt_decodeSteps hl hlt fun j hj => ?_
          obtain hj | rfl : j < s.idx.toNat ∨ j = s.idx.toNat := by omega
          · exact hi.scanned j hj
          · exact hc
        refine ⟨t, ht, .inl ⟨h.of_visible hv (.inr ⟨hot, hit⟩), ?_, hv⟩⟩
        rw [stepsLeft_dec hot, stepsLeft_dec ho, decodeSteps_visible hv, hidx]
        omega
      | false =>
        obtain ⟨t, ht, -, hv⟩ := tick_decode_terminator h.rst_low ho hi hl hlt hc
        have hterm : terminator s.buf s.len.toNat = some s.idx.toNat :=
          (terminator_some_iff _ _ _).mpr ⟨hlt, hc, hi.scanned⟩
        refine ⟨t, ht, .inr ⟨?_, ?_⟩⟩
        · rw [stepsLeft_dec ho, decodeSteps_terminator hl hterm]; omega
        · rw [hv, archResult_dec ho, archDecode_ok (dec_of_terminator hl hterm), h.cleared, ← hut]
  · have hl := not_le.mp hl
    refine ⟨_, tick_decode_out h.rst_low ho hl, .inr ⟨?_, ?_⟩⟩
    · rw [stepsLeft_dec ho, decodeSteps_out hl, hi.first hl]; rfl
    · rw [archResult_dec ho, archDecode_out hl, h.cleared]

/-- Everything a datapath step can do to a command in flight. -/
theorem InFlight.tick {s : State} (h : InFlight s) : ∃ t, tick s = .next t ∧ (StepsOn s t ∨ Lands s t) := by
  obtain ⟨ho, hi⟩ | ⟨ho, hi⟩ := h.work
  · exact tick_encode h ho hi
  · exact tick_decode h ho hi

theorem InFlight.stepsLeft_pos {s : State} (h : InFlight s) : 0 < stepsLeft s := by
  obtain ⟨_, -, ⟨-, hleft, -⟩ | ⟨hleft, -⟩⟩ := h.tick <;> omega

-- ==== Acceptance ====

theorem inFlight_acceptEncode {s : State} (hr : s.rst = false) : InFlight (acceptEncode s) where
  rst_low := hr
  cleared := rfl
  work := .inl ⟨rfl, one_le_nb _, fun _ => rfl, (BitVec.ushiftRight_zero _).symm, fun j _ => byteAt_zero j⟩

theorem inFlight_acceptDecode {s : State} (hr : s.rst = false) : InFlight (acceptDecode s) where
  rst_low := hr
  cleared := rfl
  work := .inr ⟨rfl, Nat.zero_le _, fun _ => rfl, fun j hj => absurd hj (Nat.not_lt_zero j), rfl⟩

theorem stepsLeft_acceptEncode (s : State) : stepsLeft (acceptEncode s) = encodeSteps s := rfl

theorem stepsLeft_acceptDecode (s : State) : stepsLeft (acceptDecode s) = decodeSteps s := rfl

/-- Accepted or not yet, ENCODE gives the same to the host. -/
theorem archResult_acceptEncode (s : State) : (archResult (acceptEncode s)).visible = (archEncode s).visible := by
  rw [archResult_enc (acceptEncode_opr s)]
  by_cases h : nb s.value.toNat ≤ 9
  · rw [archEncode_fits (s := s) h, archEncode_fits (s := acceptEncode s) h]; rfl
  · rw [archEncode_out (s := s) (not_le.mp h), archEncode_out (s := acceptEncode s) (not_le.mp h)]; rfl

theorem archResult_acceptDecode (s : State) : (archResult (acceptDecode s)).visible = (archDecode s).visible := by
  rw [archResult_dec (acceptDecode_opr s)]
  obtain ⟨hl, -⟩ | ⟨-, _, -, hd⟩ | ⟨-, -, hd⟩ := dec_cases s.buf s.len.toNat
  · rw [archDecode_out (s := s) hl, archDecode_out (s := acceptDecode s) hl]; rfl
  · rw [archDecode_ok (s := s) hd, archDecode_ok (s := acceptDecode s) hd]; rfl
  · rw [archDecode_ok (s := s) hd, archDecode_ok (s := acceptDecode s) hd]; rfl

-- ==== Undisturbed completion ====

/-- Left alone, a command in flight completes after the steps it has left, in the state of its architectural rule. -/
theorem InFlight.completes {s : State} (h : InFlight s) :
    ∃ t, CompletesAfter (stepsLeft s) s t ∧ t.visible = (archResult s).visible := by
  induction hn : stepsLeft s generalizing s with
  | zero =>
    have hpos := h.stepsLeft_pos
    omega
  | succ n ih =>
    obtain ⟨t, ht, ⟨hf, hleft, hv⟩ | ⟨hleft, hv⟩⟩ := h.tick
    · obtain ⟨u, hu, huv⟩ := ih hf (by omega)
      exact ⟨u, completesAfter_succ h.busy ht hu, huv.trans (archResult_visible hv)⟩
    · obtain rfl : n = 0 := by omega
      have hidle : t.opr = .none := (congrArg State.opr hv).trans (archResult_opr s)
      exact ⟨t, completesAfter_one h.busy ht hidle, hv⟩

/-- Settles O44: acceptance puts the command in flight with all its steps left, and from there it completes. -/
theorem encodeAgreesWithArchitecture : Obligations.EncodeAgreesWithArchitecture := by
  unfold Obligations.EncodeAgreesWithArchitecture
  intro r s hs hr
  obtain ⟨t, ht, hv⟩ := (inFlight_acceptEncode hr).completes
  rw [stepsLeft_acceptEncode] at ht
  exact ⟨_, t, exec_idle (.encode r) hs, ht, hv.trans (archResult_acceptEncode s)⟩

/-- Settles O45: the same for DECODE. -/
theorem decodeAgreesWithArchitecture : Obligations.DecodeAgreesWithArchitecture := by
  unfold Obligations.DecodeAgreesWithArchitecture
  intro r s hs hr
  obtain ⟨t, ht, hv⟩ := (inFlight_acceptDecode hr).completes
  rw [stepsLeft_acceptDecode] at ht
  exact ⟨_, t, exec_idle (.decode r) hs, ht, decodeSteps_le s, hv.trans (archResult_acceptDecode s)⟩

-- ==== ENCODE, then DECODE ====

/-- The buffer a successful ENCODE leaves decodes to the value, with nothing after the terminator (42_decode.md R114). -/
theorem encBuf_eq_padded (n : Wide) : encBuf n = padded (enc n) := by
  apply bytes9_ext
  intro k hk
  rw [byteAt_encBuf n hk, byteAt_padded _ hk, List.getD_eq_getElem?_getD]
  by_cases h : k < nb n.toNat
  · rw [if_pos h, List.getElem?_eq_getElem (by rwa [enc_length]), enc_getElem]; rfl
  · rw [if_neg h, List.getElem?_eq_none (by rw [enc_length]; omega)]; rfl

theorem terminator_encBuf {n : Wide} (hn : n.toNat < 2 ^ 63) :
    terminator (encBuf n) (nb n.toNat) = some (nb n.toNat - 1) := by
  have h := terminator_padded_append (isVarint_enc hn) []
  simpa [← encBuf_eq_padded] using h

theorem dec_encBuf {n : Wide} (hn : n.toNat < 2 ^ 63) : dec (encBuf n) (nb n.toNat) = .ok n false false := by
  have h9 : nb n.toNat ≤ 9 := (nb_le_iff n.toNat (k := 9) (by decide)).mpr hn
  have h := dec_padded_append (isVarint_enc hn) (rest := []) (by simpa using h9)
  simpa [← encBuf_eq_padded, varintValue_enc] using h

/-- Settles O46: the state after ENCODE holds enc(VALUE), whose decoding is `dec_encBuf`. -/
theorem encodeThenDecodeRoundTrip : Obligations.EncodeThenDecodeRoundTrip := by
  unfold Obligations.EncodeThenDecodeRoundTrip
  intro r r' s hs hr hv
  have h9 : nb s.value.toNat ≤ 9 := (nb_le_iff s.value.toNat (k := 9) (by decide)).mpr hv
  have hpos := one_le_nb s.value.toNat
  obtain ⟨a, t, ha, hat, htv⟩ := encodeAgreesWithArchitecture r s hs hr
  rw [if_pos hv] at hat
  rw [archEncode_fits h9] at htv
  have htbuf : t.buf = encBuf s.value := by simpa using congrArg State.buf htv
  have htlen : t.len.toNat = nb s.value.toNat := by
    have hlen : t.len = BitVec.ofNat 32 (nb s.value.toNat) := by simpa using congrArg State.len htv
    rw [hlen, BitVec.toNat_ofNat]
    omega
  obtain ⟨b, u, hb, hbu, -, huv⟩ :=
    decodeAgreesWithArchitecture r' t (congrArg State.opr htv) ((congrArg State.rst htv).trans hr)
  have hterm : terminator t.buf t.len.toNat = some (nb s.value.toNat - 1) := by rw [htbuf, htlen, terminator_encBuf hv]
  have hdec : dec t.buf t.len.toNat = .ok s.value false false := by rw [htbuf, htlen, dec_encBuf hv]
  rw [decodeSteps_terminator (htlen ▸ h9) hterm, Nat.sub_add_cancel hpos] at hbu
  rw [archDecode_ok hdec] at huv
  have hulen : u.len = t.len := by simpa using congrArg State.len huv
  refine ⟨a, t, b, u, ha, hat, hb, hbu, ?_, hulen ▸ htlen, congrArg State.done huv, congrArg State.unterm huv,
    congrArg State.trail huv, congrArg State.err huv⟩
  simpa using congrArg State.value huv

end Sys2Proof.Machine
end

section
/-! PROOFS of spec/70_reset_and_hazards.md sections 3 and 4 and of the loop of spec/30_encoding.md R73: host accesses do not
disturb a command in flight (R145, R146), no command hangs (R150), and polling ends. An access changes OVR and the words read at
most (`runEvent_access_busy`), so only datapath steps count, and each takes one from the steps left (`Live.tick`). -/

namespace Sys2Proof.Machine

-- ==== Host accesses while a command is in flight ====

/-- A write to a register other than CMD can change OVR only while busy (20_memory.md R47). -/
theorem writeReg_busy_eq (r : Reg) (w : Word) {s : State} (hs : s.opr ≠ .none) : ∃ o, writeReg r w s = { s with ovr := o } := by
  cases hd : droppedWhileBusy r with
  | true => exact ⟨true, writeReg_busy w hs hd⟩
  | false =>
    cases r with
    | id => exact ⟨s.ovr, rfl⟩
    | status => exact ⟨_, writeStatus_eq w s⟩
    | _ => cases hd

/-- A 32-bit access while busy changes OVR and the words read, and nothing else (20_memory.md R45, R47). -/
theorem runEvent_access_busy {e : Event} {s : State} (hs : s.opr ≠ .none) (hc : calm e = true) (he : e ≠ .tick) :
    ∃ o r, runEvent e s = .next { s with ovr := o, received := r } := by
  obtain ⟨rfl, -⟩ | ⟨off, rfl, -⟩ | ⟨off, w, rfl, -⟩ | ⟨rfl, -⟩ | ⟨rfl, -⟩ | ⟨rfl, -⟩ | ⟨off, n, hn, -, rfl | ⟨w, rfl⟩⟩ :=
    runEvent_cases (e := e) (s := s) rfl
  · exact absurd rfl he
  · exact ⟨s.ovr, _, rfl⟩
  · obtain ⟨-, h⟩ | ⟨-, -, h⟩ | ⟨-, -, hx⟩ | ⟨-, r, -, -, h⟩ := busWrite_cases (off := off) (w := w) (s := s) rfl
    · exact ⟨s.ovr, s.received, h⟩
    · exact ⟨s.ovr, s.received, h⟩
    · exact ⟨true, s.received, hx.symm.trans (exec_busy _ hs)⟩
    · obtain ⟨o, ho⟩ := writeReg_busy_eq r w hs
      exact ⟨o, s.received, h.trans (congrArg _ ho)⟩
  · cases hc
  · cases hc
  · cases hc
  · exact absurd (eq_of_beq hc) hn
  · exact absurd (eq_of_beq hc) hn

theorem InFlight.of_access {s : State} (h : InFlight s) (o : Bool) (r : List Word) :
    InFlight { s with ovr := o, received := r } where
  rst_low := h.rst_low
  cleared := congrArg (fun x => { x with ovr := o, received := r }) h.cleared
  work := h.work.imp (fun ⟨ho, hi⟩ => ⟨ho, hi.idx_lt, hi.first, hi.acc_eq, hi.wb_eq⟩)
    (fun ⟨ho, hi⟩ => ⟨ho, hi.idx_le, hi.first, hi.scanned, hi.acc_eq⟩)

/-- Events with fewer datapath steps than the command has left keep it in flight: each step counts, no access does. -/
theorem InFlight.runEvents {s : State} (h : InFlight s) {es : List Event} (hc : ∀ e ∈ es, calm e = true)
    (hn : es.count .tick < stepsLeft s) :
    ∃ u, runEvents es s = .next u ∧ InFlight u ∧ stepsLeft u + es.count .tick = stepsLeft s ∧
      withoutHost u = withoutHost s := by
  induction es generalizing s with
  | nil => exact ⟨s, rfl, h, rfl, rfl⟩
  | cons e es ih =>
    obtain ⟨hce, hces⟩ := List.forall_mem_cons.mp hc
    by_cases he : e = .tick
    · subst he
      rw [List.count_cons_self] at hn ⊢
      obtain ⟨t, ht, ⟨hf, hleft, hv⟩ | ⟨hleft, -⟩⟩ := h.tick
      · obtain ⟨u, hu, hfu, hcount, hwu⟩ := ih hf hces (by omega)
        refine ⟨u, ?_, hfu, by omega, hwu.trans (withoutHost_eq_of_visible hv)⟩
        rw [Machine.runEvents, runEvent, ht]
        exact hu
      · omega
    · rw [List.count_cons_of_ne he] at hn ⊢
      obtain ⟨o, r, hstep⟩ := runEvent_access_busy h.busy hce he
      obtain ⟨u, hu, hfu, hcount, hwu⟩ := ih (h.of_access o r) hces hn
      refine ⟨u, ?_, hfu, hcount, hwu⟩
      rw [Machine.runEvents, hstep]
      exact hu

/-- With one step left after the events, that step lands in the result for the operands at the start. -/
theorem InFlight.lands_after_runEvents {s : State} (h : InFlight s) {es : List Event} (hc : ∀ e ∈ es, calm e = true)
    (hn : es.count .tick + 1 = stepsLeft s) :
    ∃ u t, Machine.runEvents es s = .next u ∧ u.opr = s.opr ∧ Machine.tick u = .next t ∧ t.opr = .none ∧
      withoutHost t = withoutHost (archResult s) := by
  obtain ⟨u, hu, hfu, hcount, hwu⟩ := h.runEvents hc (by omega)
  obtain ⟨t, ht, ⟨hf, hleft, -⟩ | ⟨-, hv⟩⟩ := hfu.tick
  · have hpos := hf.stepsLeft_pos
    omega
  · have hop := congrArg State.opr hwu
    exact ⟨u, t, hu, hop, ht, (congrArg State.opr hv).trans (archResult_opr u),
      (withoutHost_eq_of_visible hv).trans (archResult_withoutHost hwu)⟩

/-- Settles O47: the accepted command has all its steps left, and the host cannot tell its result from the rule's. -/
theorem hostCannotDisturbCommand : Obligations.HostCannotDisturbCommand := by
  unfold Obligations.HostCannotDisturbCommand
  intro s es _ hr hc
  refine ⟨fun hn => ?_, fun hn => ?_⟩
  · rw [← stepsLeft_acceptEncode] at hn
    obtain ⟨u, t, hu, hop, ht, hidle, hw⟩ := (inFlight_acceptEncode hr).lands_after_runEvents hc hn
    exact ⟨u, t, hu, hop, ht, hidle, hw.trans (withoutHost_eq_of_visible (archResult_acceptEncode s))⟩
  · rw [← stepsLeft_acceptDecode] at hn
    obtain ⟨u, t, hu, hop, ht, hidle, hw⟩ := (inFlight_acceptDecode hr).lands_after_runEvents hc hn
    exact ⟨u, t, hu, hop, ht, hidle, hw.trans (withoutHost_eq_of_visible (archResult_acceptDecode s))⟩

-- ==== Progress ====

/-- A block that runs: rst low, idle or with a command in flight. -/
def Live (s : State) : Prop := s.rst = false ∧ (s.opr = .none ∨ InFlight s)

theorem Live.stepsLeft_eq_zero_iff {s : State} (h : Live s) : stepsLeft s = 0 ↔ s.opr = .none := by
  obtain ⟨-, ho | hf⟩ := h
  · simp [stepsLeft_idle ho, ho]
  · simp [hf.busy, hf.stepsLeft_pos.ne']

/-- No datapath step drives rst. -/
theorem tick_rst {s t : State} (h : tick s = .next t) : t.rst = s.rst := by
  obtain ⟨-, ht⟩ | ⟨-, -, he⟩ | ⟨-, -, hd⟩ := tick_cases h
  · cases ht; rfl
  · obtain ⟨-, ht⟩ | ⟨_, -, -, ht⟩ | ⟨_, -, -, ht⟩ | ⟨-, -, ht⟩ := encodeStep_cases he <;> cases ht <;> rfl
  · obtain ⟨-, ht⟩ | ⟨-, -, ht⟩ | ⟨-, -, -, ht⟩ | ⟨-, -, -, ht⟩ | ⟨-, -, ht⟩ := decodeStep_cases hd <;> cases ht <;> rfl

/-- While busy the per-command fields are as acceptance cleared them (10_state.md R21 to R24). -/
theorem StatusInv.cleared {s : State} (h : StatusInv s) (hb : s.opr ≠ .none) : clearResult s = s := by
  have hd := h.busy_not_done hb
  have he : s.err = false := by simpa [hd] using h.err_done
  have hc : s.ecode = 0 := by simpa [he] using h.err_iff
  have hu : s.unterm = false := by simpa [hd] using h.unterm_ok
  have ht : s.trail = false := by simpa [hd] using h.trail_ok
  cases s
  simp_all [clearResult]

theorem BlockInv.live {s : State} (h : BlockInv s) (hr : s.rst = false) : Live s := by
  refine ⟨hr, or_iff_not_imp_left.mpr fun hb => ⟨hr, h.status.cleared hb, ?_⟩⟩
  cases ho : s.opr with
  | none => exact absurd ho hb
  | enc => exact .inl ⟨rfl, h.enc ho⟩
  | dec => exact .inr ⟨rfl, h.dec ho⟩

/-- Each datapath step takes one from the steps left. -/
theorem Live.tick {s : State} (h : Live s) : ∃ t, tick s = .next t ∧ Live t ∧ stepsLeft t = stepsLeft s - 1 := by
  obtain ⟨hr, ho | hf⟩ := h
  · exact ⟨s, tick_idle ho, ⟨hr, .inl ho⟩, by simp [stepsLeft_idle ho]⟩
  · obtain ⟨t, ht, ⟨hft, hleft, -⟩ | ⟨hleft, hv⟩⟩ := hf.tick
    · exact ⟨t, ht, ⟨hft.rst_low, .inr hft⟩, by omega⟩
    · have hidle : t.opr = .none := (congrArg State.opr hv).trans (archResult_opr s)
      exact ⟨t, ht, ⟨(tick_rst ht).trans hr, .inl hidle⟩, by rw [stepsLeft_idle hidle, hleft]⟩

theorem Live.ticks {s : State} (h : Live s) (n : Nat) :
    ∃ t, ticks n s = .next t ∧ Live t ∧ stepsLeft t = stepsLeft s - n := by
  induction n generalizing s with
  | zero => exact ⟨s, rfl, h, rfl⟩
  | succ n ih =>
    obtain ⟨u, hu, hl, hleft⟩ := h.tick
    obtain ⟨t, ht, hlt, hleft'⟩ := ih hl
    exact ⟨t, (ticks_succ_next n hu).trans ht, hlt, by omega⟩

/-- Settles O52: the steps left are at most 10, and with none left the block is idle. -/
theorem noCommandHangs : Obligations.NoCommandHangs := by
  unfold Obligations.NoCommandHangs
  intro s h hr
  obtain ⟨t, ht, hl, hleft⟩ := (h.live hr).ticks (stepsLeft s)
  exact ⟨_, stepsLeft_le s, t, ht, hl.stepsLeft_eq_zero_iff.mp (by omega)⟩

-- ==== The polling loop ====

/-- The state after a poll of STATUS (30_encoding.md R73). -/
def polled (s : State) : State := { s with received := statusWord s :: s.received }

theorem runEvent_poll {s : State} (hr : s.rst = false) : runEvent (rd .status) s = .next (polled s) :=
  runEvent_read_reg .status hr

theorem polled_busy_bit (s : State) : ((polled s).received.headD 0).getLsbD 0 = decide (s.opr ≠ .none) := statusWord_busy s

/-- A poll that reads BUSY = 0 ends the loop. -/
theorem wait_idle {s : State} (between fuel : Nat) (hr : s.rst = false) (ho : s.opr = .none) :
    wait between (fuel + 1) s = (true, .next (polled s)) := by
  simp only [wait, runEvent_poll hr, polled_busy_bit]
  exact if_neg (by simp [ho])

/-- One that reads BUSY = 1 is followed by datapath steps and the next poll. -/
theorem wait_busy {s u : State} {between : Nat} (fuel : Nat) (hr : s.rst = false) (ho : s.opr ≠ .none)
    (hu : ticks between (polled s) = .next u) : wait between (fuel + 1) s = wait between fuel u := by
  simp only [wait, runEvent_poll hr, polled_busy_bit, hu]
  exact if_pos (by simp [ho])

/-- More polls than steps left are enough. -/
theorem Live.wait_ends {s : State} (h : Live s) {between fuel : Nat} (hb : 1 ≤ between) (hf : stepsLeft s < fuel) :
    ∃ t, wait between fuel s = (true, .next t) ∧ t.opr = .none := by
  induction fuel generalizing s with
  | zero => omega
  | succ fuel ih =>
    obtain ⟨hr, ho | hi⟩ := h
    · exact ⟨polled s, wait_idle between fuel hr ho, ho⟩
    · have hpolled : Live (polled s) := ⟨hr, .inr (hi.of_access s.ovr _)⟩
      obtain ⟨u, hu, hlu, hleft⟩ := hpolled.ticks between
      have hleft' : stepsLeft u = stepsLeft s - between := hleft
      have hpos := hi.stepsLeft_pos
      rw [wait_busy fuel hr hi.busy hu]
      exact ih hlu (by omega)

/-- Settles O53: eleven polls are more than the ten steps that a command has left at most. -/
theorem waitLoopEnds : Obligations.WaitLoopEnds := by
  unfold Obligations.WaitLoopEnds
  exact fun s between h hr hb => (h.live hr).wait_ends hb (Nat.lt_succ_of_le (stepsLeft_le s))

end Sys2Proof.Machine
end

section
/-! PROOFS of spec/10_state.md (R15, R21 to R24, R30 to R32) and spec/60_exceptions.md R124: which events change which state. What
a datapath step can do to the registers is said once (`tick_effect`), and so is what an event can do (`runEvent_effect`); each
statement is a reading of these two. -/

namespace Sys2Proof.Machine

-- ==== What a datapath step does to the state ====

/-- A datapath step changes internal registers only, or completes the command in flight: in error, or with its results. -/
theorem tick_effect {s t : State} (h : tick s = .next t) :
    (∃ a i w, t = { s with acc := a, idx := i, wb := w }) ∨
    (s.opr = .enc ∧ t = completeError .encOutOfRange s) ∨
    (s.opr = .dec ∧ t = completeError .decOutOfRange s) ∨
    (s.opr = .enc ∧ ∃ a i w b l, t = completeOk { s with acc := a, idx := i, wb := w, buf := b, len := l }) ∨
    (s.opr = .dec ∧ ∃ a v u r, t = completeOk { s with acc := a, value := v, unterm := u, trail := r } ∧
      (u = s.unterm ∨ r = s.trail)) := by
  obtain ⟨-, ht⟩ | ⟨-, ho, he⟩ | ⟨-, ho, hd⟩ := tick_cases h
  · cases ht; exact .inl ⟨_, _, _, rfl⟩
  · obtain ⟨-, ht⟩ | ⟨_, -, -, ht⟩ | ⟨_, -, -, ht⟩ | ⟨-, -, ht⟩ := encodeStep_cases he <;> cases ht
    · exact .inr (.inl ⟨ho, rfl⟩)
    · exact .inr (.inr (.inr (.inl ⟨ho, _, _, _, _, _, rfl⟩)))
    · exact .inl ⟨_, _, _, rfl⟩
  · obtain ⟨-, ht⟩ | ⟨-, -, ht⟩ | ⟨-, -, -, ht⟩ | ⟨-, -, -, ht⟩ | ⟨-, -, ht⟩ := decodeStep_cases hd <;> cases ht
    · exact .inr (.inr (.inl ⟨ho, rfl⟩))
    · exact .inr (.inr (.inr (.inr ⟨ho, _, _, _, _, rfl, .inr rfl⟩)))
    · exact .inr (.inr (.inr (.inr ⟨ho, _, _, _, _, rfl, .inl rfl⟩)))
    · exact .inl ⟨_, _, _, rfl⟩

-- ==== What an event does to the state ====

/-- The registers that hold operands and results (20_memory.md R46). -/
def isData (r : Reg) : Bool := droppedWhileBusy r && r != .cmd

/-- A write stores a data register or runs a command while idle, or changes OVR at most. -/
theorem busWrite_effect {off : BitVec 6} {w : Word} {s t : State} (h : busWrite off 4 w s = .next t) :
    (∃ o, t = { s with ovr := o } ∧ (s.rst = true → o = s.ovr)) ∨
    (s.rst = false ∧ s.opr = .none ∧ wordOffset off = 1 ∧ t = commandEffect (decodeWord w) s) ∨
    (s.rst = false ∧ s.opr = .none ∧ ∃ r, regAt (wordOffset off) = some r ∧ isData r = true ∧ t = storeReg r w s) := by
  obtain ⟨-, ht⟩ | ⟨-, -, ht⟩ | ⟨hr, ha, he⟩ | ⟨hr, r, ha, hc, ht⟩ := busWrite_cases h
  · cases ht; exact .inl ⟨s.ovr, rfl, fun _ => rfl⟩
  · cases ht; exact .inl ⟨s.ovr, rfl, fun _ => rfl⟩
  · obtain ⟨-, ht⟩ | ⟨hs, ht⟩ := exec_cases he <;> cases ht
    · exact .inl ⟨true, rfl, by simp [hr]⟩
    · exact .inr (.inl ⟨hr, hs, (regAt_eq_cmd_iff _).mp ha, rfl⟩)
  · cases ht
    by_cases hs : s.opr = .none
    · cases hd : droppedWhileBusy r with
      | true => exact .inr (.inr ⟨hr, hs, r, ha, by simp [isData, hd, hc], writeReg_idle w hs hd⟩)
      | false =>
        cases r with
        | id => exact .inl ⟨s.ovr, rfl, fun _ => rfl⟩
        | status => exact .inl ⟨_, writeStatus_eq w s, by simp [hr]⟩
        | _ => cases hd
    · obtain ⟨o, ho⟩ := writeReg_busy_eq r w hs
      exact .inl ⟨o, ho, by simp [hr]⟩

/-- Every way an event can change the state: a datapath step; OVR, the words read and the release of rst; a command or a
data register written while idle; a reset. -/
theorem runEvent_effect {e : Event} {s t : State} (h : runEvent e s = .next t) :
    (e = .tick ∧ tick s = .next t) ∨
    (∃ o r l, t = { s with ovr := o, received := r, rst := l } ∧ (l = true → s.rst = true ∧ o = s.ovr)) ∨
    (s.rst = false ∧ s.opr = .none ∧ ∃ off w, e = .write off 4 w ∧ wordOffset off = 1 ∧
      t = commandEffect (decodeWord w) s) ∨
    (s.rst = false ∧ s.opr = .none ∧ ∃ off w r, e = .write off 4 w ∧ regAt (wordOffset off) = some r ∧ isData r = true ∧
      t = storeReg r w s) ∨
    ((e = .reset ∨ e = .setRst true) ∧ ∃ l, t = { resetBlock s with rst := l }) := by
  obtain ⟨rfl, ht⟩ | ⟨off, rfl, hrd⟩ | ⟨off, w, rfl, hw⟩ | ⟨rfl, ht⟩ | ⟨rfl, ht⟩ | ⟨rfl, ht⟩ | ⟨_, _, -, ht, -⟩ :=
    runEvent_cases h
  · exact .inl ⟨rfl, ht⟩
  · cases hrd; exact .inr (.inl ⟨s.ovr, _, s.rst, rfl, fun hl => ⟨hl, rfl⟩⟩)
  · obtain ⟨o, ht, ho⟩ | ⟨hr, hs, hoff, ht⟩ | ⟨hr, hs, r, ha, hd, ht⟩ := busWrite_effect hw
    · exact .inr (.inl ⟨o, s.received, s.rst, ht, fun hl => ⟨hl, ho hl⟩⟩)
    · exact .inr (.inr (.inl ⟨hr, hs, off, w, rfl, hoff, ht⟩))
    · exact .inr (.inr (.inr (.inl ⟨hr, hs, off, w, r, rfl, ha, hd, ht⟩)))
  · cases ht; exact .inr (.inr (.inr (.inr ⟨.inl rfl, false, rfl⟩)))
  · cases ht; exact .inr (.inr (.inr (.inr ⟨.inr rfl, true, rfl⟩)))
  · cases ht; exact .inr (.inl ⟨s.ovr, s.received, false, rfl, by simp⟩)
  · cases ht

-- ==== Commands and stores by the fields they write ====

@[simp] theorem commandEffect_value (i : Instr) (s : State) : (commandEffect i s).value = s.value := by
  cases i <;> simp [commandEffect]

@[simp] theorem commandEffect_len (i : Instr) (s : State) : (commandEffect i s).len = s.len := by
  cases i <;> simp [commandEffect]

@[simp] theorem commandEffect_buf (i : Instr) (s : State) : (commandEffect i s).buf = s.buf := by
  cases i <;> simp [commandEffect]

/-- NOP is the one command that leaves the per-command fields alone (40_commands.md R76 to R78). -/
theorem resultFields_commandEffect {i : Instr} (h : i.op = 0) (s : State) :
    resultFields (commandEffect i s) = resultFields s := by
  cases i with
  | nop r => rfl
  | _ => cases h

@[simp] theorem resultFields_storeReg (r : Reg) (w : Word) (s : State) : resultFields (storeReg r w s) = resultFields s := by
  simp [resultFields]

/-- A data register's write reaches VALUE, LEN or BUF, by the register's name (20_memory.md R42). -/
theorem storeReg_data_cases {r : Reg} (w : Word) (s : State) (h : isData r = true) :
    (r ∈ [Reg.value0, .value1, .value2, .value3] ∧ (storeReg r w s).len = s.len ∧ (storeReg r w s).buf = s.buf) ∨
    (r ∈ [Reg.len] ∧ (storeReg r w s).value = s.value ∧ (storeReg r w s).buf = s.buf) ∨
    (r ∈ [Reg.buf0, .buf1, .buf2] ∧ (storeReg r w s).value = s.value ∧ (storeReg r w s).len = s.len) := by
  cases r with
  | id | cmd | status => cases h
  | value0 | value1 | value2 | value3 => exact .inl ⟨by decide, rfl, rfl⟩
  | len => exact .inr (.inl ⟨by decide, rfl, rfl⟩)
  | buf0 | buf1 | buf2 => exact .inr (.inr ⟨by decide, rfl, rfl⟩)

-- ==== The internal registers while idle ====

/-- No register's word shows an internal register (10_state.md R30). -/
theorem readWord_internals (s : State) (a : Wide) (i : BitVec 4) (b : Bytes9) (o : BitVec 4) :
    readWord { s with acc := a, idx := i, wb := b } o = readWord s o := by
  unfold readWord
  cases regAt o with
  | none => rfl
  | some r => cases r <;> rfl

theorem commandEffect_internals (c : Instr) (s : State) (a : Wide) (i : BitVec 4) (b : Bytes9) :
    (commandEffect c { s with acc := a, idx := i, wb := b }).visible = (commandEffect c s).visible := by
  cases c <;> rfl

theorem storeReg_internals (r : Reg) (w : Word) (s : State) (a : Wide) (i : BitVec 4) (b : Bytes9) :
    (storeReg r w { s with acc := a, idx := i, wb := b }).visible = (storeReg r w s).visible := by
  cases r <;> rfl

theorem writeReg_internals (r : Reg) (w : Word) (s : State) (a : Wide) (i : BitVec 4) (b : Bytes9) (hs : s.opr = .none) :
    (writeReg r w { s with acc := a, idx := i, wb := b }).visible = (writeReg r w s).visible := by
  cases hd : droppedWhileBusy r with
  | true => rw [writeReg_idle w hs hd, writeReg_idle w (s := { s with acc := a, idx := i, wb := b }) hs hd, storeReg_internals]
  | false =>
    cases r with
    | id => rfl
    | status => simp only [writeReg, writeStatus_eq]; rfl
    | _ => cases hd

/-- Other values in the internal registers make no event of an idle block show anything else (10_state.md R30). -/
theorem runEvent_internals {e : Event} {s t : State} (hs : s.opr = .none) (h : runEvent e s = .next t) (a : Wide)
    (i : BitVec 4) (b : Bytes9) :
    ∃ t', runEvent e { s with acc := a, idx := i, wb := b } = .next t' ∧ t'.visible = t.visible := by
  obtain ⟨rfl, ht⟩ | ⟨off, rfl, hrd⟩ | ⟨off, w, rfl, hw⟩ | ⟨rfl, ht⟩ | ⟨rfl, ht⟩ | ⟨rfl, ht⟩ | ⟨_, _, -, ht, -⟩ :=
    runEvent_cases h
  · rw [tick_idle hs] at ht
    cases ht
    exact ⟨_, tick_idle hs, rfl⟩
  · cases hrd
    have hw : readWord (if s.rst then State.reset else { s with acc := a, idx := i, wb := b }) (wordOffset off) =
        readWord (if s.rst then State.reset else s) (wordOffset off) := by
      split
      · rfl
      · exact readWord_internals s a i b _
    exact ⟨_, rfl, congrArg (fun x => { s.visible with received := x :: s.received }) hw⟩
  · obtain ⟨hr, ht⟩ | ⟨-, ha, ht⟩ | ⟨hr, ha, he⟩ | ⟨hr, r, ha, hc, ht⟩ := busWrite_cases hw
    · cases ht; exact ⟨_, runEvent_write_held off w hr, rfl⟩
    · cases ht; exact ⟨_, runEvent_write_ignored w (.inl ha), rfl⟩
    · rw [exec_idle _ hs] at he
      cases he
      exact ⟨_, (runEvent_write_cmd (s := { s with acc := a, idx := i, wb := b }) w hr ((regAt_eq_cmd_iff _).mp ha)).trans
          (exec_idle _ hs),
        commandEffect_internals _ s a i b⟩
    · cases ht; exact ⟨_, runEvent_write_reg w hr ha hc, writeReg_internals r w s a i b hs⟩
  · cases ht; exact ⟨_, rfl, rfl⟩
  · cases ht; exact ⟨_, rfl, rfl⟩
  · cases ht; exact ⟨_, rfl, rfl⟩
  · cases ht

/-- A command after which the block is idle leaves the internal registers alone. -/
theorem commandEffect_keeps_internals {c : Instr} {s : State} (h : (commandEffect c s).opr = .none) :
    (commandEffect c s).acc = s.acc ∧ (commandEffect c s).idx = s.idx ∧ (commandEffect c s).wb = s.wb := by
  cases c with
  | nop r => exact ⟨rfl, rfl, rfl⟩
  | reserved r => exact ⟨rfl, rfl, rfl⟩
  | encode r => cases h
  | decode r => cases h

-- ==== The obligations ====

/-- Settles O26: no event reads them (`runEvent_internals`), and of the events that leave the block idle only a reset writes
them. -/
theorem internalRegistersUnreadWhileIdle : Obligations.InternalRegistersUnreadWhileIdle := by
  unfold Obligations.InternalRegistersUnreadWhileIdle
  refine fun s t e hs h => ⟨runEvent_internals hs h, fun h1 h2 ht => ?_⟩
  obtain ⟨-, htick⟩ | ⟨o, r, l, rfl, -⟩ | ⟨-, -, off, w, -, -, rfl⟩ | ⟨-, -, off, w, r, -, -, -, rfl⟩ | ⟨he | he, -⟩ :=
    runEvent_effect h
  · rw [tick_idle hs] at htick
    cases htick
    exact ⟨rfl, rfl, rfl⟩
  · exact ⟨rfl, rfl, rfl⟩
  · exact commandEffect_keeps_internals ht
  · simp
  · exact absurd he h1
  · exact absurd he h2

/-- Settles O28: of `runEvent_effect`'s cases, a command other than NOP and a completion write these fields. -/
theorem resultFieldsChangeOnly : Obligations.ResultFieldsChangeOnly := by
  unfold Obligations.ResultFieldsChangeOnly
  intro s t e h h1 h2
  obtain ⟨he, htick⟩ | ⟨o, r, l, rfl, -⟩ | ⟨hr, hs, off, w, he, hoff, rfl⟩ | ⟨-, -, off, w, r, -, -, -, rfl⟩ | ⟨he | he, -⟩ :=
    runEvent_effect h
  · obtain ⟨a, i, b, rfl⟩ | ⟨ho, rfl⟩ | ⟨ho, rfl⟩ | ⟨ho, _, _, _, _, _, rfl⟩ | ⟨ho, _, _, _, _, rfl, -⟩ := tick_effect htick
    · exact .inl rfl
    all_goals exact .inr (.inr ⟨by simp [ho], he, rfl, rfl⟩)
  · exact .inl rfl
  · by_cases hop : w.extractLsb' 0 2 = 0
    · exact .inl (resultFields_commandEffect ((decodeWord_op w).trans hop) s)
    · exact .inr (.inl ⟨hs, hr, off, w, he, hoff, hop⟩)
  · exact .inl (resultFields_storeReg r w s)
  · exact absurd he h1
  · exact absurd he h2

/-- Settles O29: a store goes to the group of its register (`storeReg_data_cases`), and a completion without error writes the
results of its own command. -/
theorem dataRegistersChangeOnly : Obligations.DataRegistersChangeOnly := by
  unfold Obligations.DataRegistersChangeOnly
  intro s t e h h1 h2 idleWrite completes
  obtain ⟨he, htick⟩ | ⟨o, r, l, rfl, -⟩ | ⟨-, -, off, w, -, -, rfl⟩ | ⟨hr, hs, off, w, r, he, ha, hd, rfl⟩ | ⟨he | he, -⟩ :=
    runEvent_effect h
  · obtain ⟨a, i, b, rfl⟩ | ⟨-, rfl⟩ | ⟨-, rfl⟩ | ⟨ho, _, _, _, _, _, rfl⟩ | ⟨ho, _, _, _, _, rfl, -⟩ := tick_effect htick
    · exact ⟨.inl rfl, .inl rfl, .inl rfl⟩
    · exact ⟨.inl rfl, .inl rfl, .inl rfl⟩
    · exact ⟨.inl rfl, .inl rfl, .inl rfl⟩
    · have hc : completes .enc := ⟨ho, he, rfl, rfl, rfl⟩
      exact ⟨.inl rfl, .inr (.inr hc), .inr (.inr hc)⟩
    · exact ⟨.inr (.inr ⟨ho, he, rfl, rfl, rfl⟩), .inl rfl, .inl rfl⟩
  · exact ⟨.inl rfl, .inl rfl, .inl rfl⟩
  · simp
  · have hw (rs : List Reg) (hm : r ∈ rs) : idleWrite rs := ⟨hs, hr, off, w, r, hm, he, ha⟩
    obtain ⟨hm, hl, hb⟩ | ⟨hm, hv, hb⟩ | ⟨hm, hv, hl⟩ := storeReg_data_cases w s hd
    · exact ⟨.inr (.inl (hw _ hm)), .inl hl, .inl hb⟩
    · exact ⟨.inl hv, .inr (.inl (hw _ hm)), .inl hb⟩
    · exact ⟨.inl hv, .inl hl, .inr (.inl (hw _ hm))⟩
  · exact absurd he h1
  · exact absurd he h2

/-- Settles O30: while busy an event is a datapath step, or changes neither operands nor OPR. -/
theorem inputsFrozenWhileBusy : Obligations.InputsFrozenWhileBusy := by
  unfold Obligations.InputsFrozenWhileBusy
  intro s t e hb h h1 h2
  obtain ⟨he, htick⟩ | ⟨o, r, l, rfl, -⟩ | ⟨-, hs, -⟩ | ⟨-, hs, -⟩ | ⟨he | he, -⟩ := runEvent_effect h
  · refine ⟨fun ht => ?_, fun _ => he⟩
    obtain ⟨a, i, b, rfl⟩ | ⟨-, rfl⟩ | ⟨-, rfl⟩ | ⟨-, _, _, _, _, _, rfl⟩ | ⟨-, _, _, _, _, rfl, -⟩ := tick_effect htick
    · exact ⟨rfl, rfl, rfl, rfl⟩
    all_goals exact absurd rfl ht
  · exact ⟨fun _ => ⟨rfl, rfl, rfl, rfl⟩, fun ht => absurd ht hb⟩
  · exact absurd hs hb
  · exact absurd hs hb
  · exact absurd he h1
  · exact absurd he h2

/-- Settles O31: ERR is 0 while busy, and only complete_error sets it. -/
theorem errorCompletionIsPrecise : Obligations.ErrorCompletionIsPrecise := by
  unfold Obligations.ErrorCompletionIsPrecise
  intro s t e hi hb h herr
  have hs : s.err = false := congrArg State.err (hi.cleared hb).symm
  obtain ⟨-, htick⟩ | ⟨o, r, l, rfl, -⟩ | ⟨-, hs', -⟩ | ⟨-, hs', -⟩ | ⟨-, l, rfl⟩ := runEvent_effect h
  · obtain ⟨a, i, b, rfl⟩ | ⟨ho, rfl⟩ | ⟨ho, rfl⟩ | ⟨-, _, _, _, _, _, rfl⟩ | ⟨-, _, _, _, _, rfl, -⟩ := tick_effect htick
    · exact absurd herr (by simp [hs])
    · exact ⟨.inl ⟨ho, rfl⟩, rfl⟩
    · exact ⟨.inr ⟨ho, rfl⟩, rfl⟩
    · exact absurd herr (by simp [hs])
    · exact absurd herr (by simp [hs])
  · exact absurd herr (by simp [hs])
  · exact absurd hs' hb
  · exact absurd hs' hb
  · exact absurd herr (by simp)

end Sys2Proof.Machine
end

section
/-! PROOFS of the invariants: the STATUS fields (spec/10_state.md R21 to R24, spec/60_exceptions.md R121) and the block
(spec/10_state.md R30, R33, spec/41_encode.md R96, spec/42_decode.md R116). With rst low the invariant of the block is `Live` with
consistent STATUS fields and IDX at most 9 (`Live.blockInv`), so a step keeps it because it keeps these three. -/

namespace Sys2Proof.Machine

-- ==== The STATUS fields ====

theorem StatusInv.of_eq {s t : State} (h : StatusInv s) (hf : resultFields t = resultFields s)
    (ho : t.opr ≠ .none → s.opr ≠ .none) : StatusInv t := by
  obtain ⟨hd, he, hc, hu, hr⟩ : t.done = s.done ∧ t.err = s.err ∧ t.ecode = s.ecode ∧ t.unterm = s.unterm ∧
      t.trail = s.trail := by simpa [resultFields] using hf
  exact ⟨fun hb => hd.trans (h.busy_not_done (ho hb)), by rw [he, hc]; exact h.err_iff, by rw [hc]; exact h.ecode_le,
    by rw [he, hd]; exact h.err_done, by rw [hu, hd, he]; exact h.unterm_ok, by rw [hr, hd, he]; exact h.trail_ok,
    by rw [hu, hr]; exact h.not_both⟩

/-- Cleared fields are consistent, idle or busy (40_commands.md R76). -/
theorem statusInv_of_cleared {s : State} (h : resultFields s = (false, false, 0, false, false)) : StatusInv s := by
  obtain ⟨hd, he, hc, hu, hr⟩ : s.done = false ∧ s.err = false ∧ s.ecode = 0 ∧ s.unterm = false ∧ s.trail = false := by
    simpa [resultFields] using h
  constructor <;> simp [hd, he, hc, hu, hr]

/-- A completion in error, from cleared fields (60_exceptions.md R121, R124). -/
theorem statusInv_completeError (c : ErrorCode) {s : State} (h : clearResult s = s) : StatusInv (completeError c s) := by
  have hu : s.unterm = false := congrArg State.unterm h.symm
  have hr : s.trail = false := congrArg State.trail h.symm
  have hc : c.code ≠ 0#4 ∧ c.code.toNat ≤ 3 := by cases c <;> decide
  constructor <;> simp [hu, hr, hc]

/-- A completion without error (40_commands.md R79, 10_state.md R24). -/
theorem statusInv_completeOk {s : State} (he : s.err = false) (hc : s.ecode = 0) (hn : ¬(s.unterm = true ∧ s.trail = true)) :
    StatusInv (completeOk s) := by
  constructor <;> simp_all

theorem statusInv_tick {s t : State} (h : StatusInv s) (ht : tick s = .next t) : StatusInv t := by
  obtain ⟨a, i, w, rfl⟩ | ⟨ho, rfl⟩ | ⟨ho, rfl⟩ | ⟨ho, a, i, w, b, l, rfl⟩ | ⟨ho, a, v, u, r, rfl, hur⟩ := tick_effect ht
  · exact h.of_eq rfl id
  all_goals
    have hcl := h.cleared (by simp [ho])
    have he : s.err = false := congrArg State.err hcl.symm
    have hc : s.ecode = 0 := congrArg State.ecode hcl.symm
    have hu : s.unterm = false := congrArg State.unterm hcl.symm
    have hr : s.trail = false := congrArg State.trail hcl.symm
  · exact statusInv_completeError _ hcl
  · exact statusInv_completeError _ hcl
  · exact statusInv_completeOk he hc (by simp [hu])
  · exact statusInv_completeOk he hc (by obtain rfl | rfl := hur <;> simp [hu, hr])

theorem statusInv_commandEffect (c : Instr) {s : State} (h : StatusInv s) : StatusInv (commandEffect c s) := by
  cases c with
  | nop r => exact h
  | encode r => exact statusInv_of_cleared rfl
  | decode r => exact statusInv_of_cleared rfl
  | reserved r => exact statusInv_completeError .badCommand rfl

theorem statusInv_runEvent {e : Event} {s t : State} (h : StatusInv s) (ht : runEvent e s = .next t) : StatusInv t := by
  obtain ⟨-, htick⟩ | ⟨o, r, l, rfl, -⟩ | ⟨-, -, off, w, -, -, rfl⟩ | ⟨-, -, off, w, r, -, -, -, rfl⟩ | ⟨-, l, rfl⟩ :=
    runEvent_effect ht
  · exact statusInv_tick h htick
  · exact h.of_eq rfl id
  · exact statusInv_commandEffect _ h
  · exact h.of_eq (resultFields_storeReg r w s) (by simp)
  · exact statusInv_of_cleared rfl

/-- A step is a datapath step or the next event, on a state that differs in the events to come. -/
theorem step_cases (s : State) :
    (s.pending = [] ∧ step s = tick s) ∨
    ∃ e rest, s.pending = e :: rest ∧ step s = runEvent e { s with pending := rest } := by
  cases hp : s.pending with
  | nil => exact .inl ⟨rfl, step_nil hp⟩
  | cons e rest => exact .inr ⟨e, rest, rfl, step_cons hp⟩

-- ==== The block ====

/-- With rst low, the invariant in three parts. -/
theorem Live.blockInv {s : State} (h : Live s) (hs : StatusInv s) (hi : s.idx.toNat ≤ 9) : BlockInv s := by
  obtain ⟨hr, ho | hf⟩ := h
  · exact ⟨hs, hi, by simp [ho], by simp [ho], by simp [hr]⟩
  · refine ⟨hs, hi, fun ho => ?_, fun ho => ?_, by simp [hr]⟩
    · obtain ⟨-, h⟩ | ⟨ho', -⟩ := hf.work
      · exact h
      · simp [ho] at ho'
    · obtain ⟨ho', -⟩ | ⟨-, h⟩ := hf.work
      · simp [ho] at ho'
      · exact h

/-- The host's own fields, and the release of rst, do not matter to the invariant. -/
theorem BlockInv.host {s : State} (h : BlockInv s) (o : Bool) (r : List Word) (p : List Event) (l : Bool)
    (hl : l = true → s.rst = true ∧ o = s.ovr) : BlockInv { s with ovr := o, received := r, pending := p, rst := l } where
  status := h.status.of_eq rfl id
  idx_le := h.idx_le
  enc ho := have hi := h.enc ho; ⟨hi.idx_lt, hi.first, hi.acc_eq, hi.wb_eq⟩
  dec ho := have hi := h.dec ho; ⟨hi.idx_le, hi.first, hi.scanned, hi.acc_eq⟩
  held hr := by
    obtain ⟨hs, rfl⟩ := hl hr
    exact congrArg (fun x => { x with received := r, pending := p, rst := l }) (h.held hs)

theorem blockInv_resetBlock (s : State) (l : Bool) : BlockInv { resetBlock s with rst := l } where
  status := statusInv_of_cleared rfl
  idx_le := Nat.zero_le 9
  enc ho := by cases ho
  dec ho := by cases ho
  held _ := rfl

/-- IDX counts up to 9 and no further: WB has nine bytes, and a DECODE's LEN is at most 9 (10_state.md R30). -/
theorem tick_idx_le {s t : State} (hi : s.idx.toNat ≤ 9) (h : tick s = .next t) : t.idx.toNat ≤ 9 := by
  obtain ⟨-, ht⟩ | ⟨-, -, he⟩ | ⟨-, -, hd⟩ := tick_cases h
  · cases ht; exact hi
  · obtain ⟨-, ht⟩ | ⟨hlt, -, -, ht⟩ | ⟨hlt, -, -, ht⟩ | ⟨-, -, ht⟩ := encodeStep_cases he <;> cases ht
    · exact hi
    · exact (idx_succ hlt).trans_le hlt
    · exact (idx_succ hlt).trans_le hlt
  · obtain ⟨-, ht⟩ | ⟨-, -, ht⟩ | ⟨-, -, -, ht⟩ | ⟨hl, hlt, -, ht⟩ | ⟨-, -, ht⟩ := decodeStep_cases hd <;> cases ht
    · exact hi
    · exact hi
    · exact hi
    · have h9 : s.idx.toNat < 9 := hlt.trans_le hl
      exact (idx_succ h9).trans_le h9

theorem tick_held {s : State} (hr : s.rst = true) : tick s = .next s := by simp [tick, hr]

/-- Under the invariant a datapath step answers a next state (41_encode.md R89, 42_decode.md R105). -/
theorem BlockInv.tick_next {s : State} (h : BlockInv s) : ∃ t, tick s = .next t := by
  cases hr : s.rst with
  | true => exact ⟨s, tick_held hr⟩
  | false =>
    obtain ⟨t, ht, -⟩ := (h.live hr).tick
    exact ⟨t, ht⟩

theorem BlockInv.tick {s t : State} (h : BlockInv s) (ht : tick s = .next t) : BlockInv t := by
  cases hr : s.rst with
  | true =>
    rw [tick_held hr] at ht
    cases ht
    exact h
  | false =>
    obtain ⟨u, hu, hlive, -⟩ := (h.live hr).tick
    rw [ht] at hu
    cases hu
    exact hlive.blockInv (statusInv_tick h.status ht) (tick_idx_le h.idx_le ht)

theorem live_commandEffect (c : Instr) {s : State} (hr : s.rst = false) (ho : s.opr = .none) : Live (commandEffect c s) := by
  cases c with
  | nop r => exact ⟨hr, .inl ho⟩
  | encode r => exact ⟨hr, .inr (inFlight_acceptEncode hr)⟩
  | decode r => exact ⟨hr, .inr (inFlight_acceptDecode hr)⟩
  | reserved r => exact ⟨hr, .inl rfl⟩

theorem commandEffect_idx_le (c : Instr) {s : State} (hi : s.idx.toNat ≤ 9) : (commandEffect c s).idx.toNat ≤ 9 := by
  cases c with
  | nop r => exact hi
  | encode r => exact Nat.zero_le 9
  | decode r => exact Nat.zero_le 9
  | reserved r => exact hi

theorem BlockInv.runEvent {e : Event} {s t : State} (h : BlockInv s) (ht : runEvent e s = .next t) : BlockInv t := by
  obtain ⟨-, htick⟩ | ⟨o, r, l, rfl, hl⟩ | ⟨hr, hs, off, w, -, -, rfl⟩ | ⟨hr, hs, off, w, r, -, -, -, rfl⟩ | ⟨-, l, rfl⟩ :=
    runEvent_effect ht
  · exact h.tick htick
  · exact h.host o r s.pending l hl
  · exact (live_commandEffect _ hr hs).blockInv (statusInv_commandEffect _ h.status) (commandEffect_idx_le _ h.idx_le)
  · have hlive : Live (storeReg r w s) := ⟨by simp [hr], .inl (by simp [hs])⟩
    exact hlive.blockInv (statusInv_runEvent h.status ht) (by simpa using h.idx_le)
  · exact blockInv_resetBlock s l

/-- Under the invariant an event answers a next state, or its access has a width that is refused. -/
theorem BlockInv.runEvent_next_or_refused {s : State} (h : BlockInv s) (e : Event) :
    (∃ t, Machine.runEvent e s = .next t) ∨
    ∃ off size, size ≠ 4 ∧ Machine.runEvent e s = .refused (.accessWidth size) ∧
      (e = .read off size ∨ ∃ w, e = .write off size w) := by
  obtain ⟨rfl, -⟩ | ⟨off, rfl, -⟩ | ⟨off, w, rfl, -⟩ | ⟨rfl, -⟩ | ⟨rfl, -⟩ | ⟨rfl, -⟩ | ⟨off, size, hn, hx, he⟩ :=
    runEvent_cases (e := e) (s := s) rfl
  · exact .inl h.tick_next
  · exact .inl ⟨_, rfl⟩
  · exact .inl (runEvent_write_completes off w s)
  · exact .inl ⟨_, rfl⟩
  · exact .inl ⟨_, rfl⟩
  · exact .inl ⟨_, rfl⟩
  · exact .inr ⟨off, size, hn, hx, he⟩

/-- Taking the next event off the list keeps the invariant. -/
theorem BlockInv.pending {s : State} (h : BlockInv s) (p : List Event) : BlockInv { s with pending := p } :=
  h.host s.ovr s.received p s.rst fun hr => ⟨hr, rfl⟩

-- ==== The obligations ====

/-- Settles O48: a reset state is a block that has just been reset. -/
theorem invariantAtReset : Obligations.InvariantAtReset := by
  unfold Obligations.InvariantAtReset
  exact blockInv_resetBlock State.reset false

/-- Settles O49: a datapath step keeps the invariant, and so does every event. -/
theorem invariantKeptByStep : Obligations.InvariantKeptByStep := by
  unfold Obligations.InvariantKeptByStep
  intro s t h ht
  obtain ⟨-, hstep⟩ | ⟨e, rest, -, hstep⟩ := step_cases s
  · exact h.tick (hstep ▸ ht)
  · exact (h.pending rest).runEvent (hstep ▸ ht)

/-- Settles O50: only an access width is refused (`BlockInv.runEvent_next_or_refused`). -/
theorem stepNeverFaults : Obligations.StepNeverFaults := by
  unfold Obligations.StepNeverFaults
  intro s h
  obtain ⟨-, hstep⟩ | ⟨e, rest, hp, hstep⟩ := step_cases s
  · exact .inl (hstep ▸ h.tick_next)
  · rw [hstep, hp]
    obtain hn | ⟨off, size, hsize, hx, rfl | ⟨w, rfl⟩⟩ := (h.pending rest).runEvent_next_or_refused e
    · exact .inl hn
    · exact .inr ⟨off, size, rest, hsize, hx, .inl rfl⟩
    · exact .inr ⟨off, size, rest, hsize, hx, .inr ⟨w, rfl⟩⟩

/-- Settles O51: a datapath step keeps the STATUS fields consistent, and so does every event. -/
theorem statusFieldsConsistent : Obligations.StatusFieldsConsistent := by
  unfold Obligations.StatusFieldsConsistent
  intro s t h ht
  obtain ⟨-, hstep⟩ | ⟨e, rest, -, hstep⟩ := step_cases s
  · exact statusInv_tick h (hstep ▸ ht)
  · have hs : StatusInv { s with pending := rest } := h.of_eq rfl id
    exact statusInv_runEvent hs (hstep ▸ ht)

end Sys2Proof.Machine
end

section
/-! PROOFS of spec/20_memory.md sections 1 to 3 and 6, spec/30_encoding.md R73, spec/60_exceptions.md section 2 and
spec/70_reset_and_hazards.md sections 1 and 4: what single accesses and short runs of accesses do. A store to a data register
changes its own word and no other (`readReg_storeReg`, `readReg_storeReg_other`); an access acts by its word offset alone
(`runEvent_read_congr`, `runEvent_write_congr`); a reference cycle is a run of its events. -/

namespace Sys2Proof.Machine

-- ==== VALUE by words ====

/-- Word k of VALUE (10_state.md R25). -/
def valueWord (v : Wide) (k : Fin 4) : Word := v.extractLsb' (32 * k.val) 32

/-- The register that holds word k of VALUE. -/
def valueReg : Fin 4 → Reg
  | 0 => .value0
  | 1 => .value1
  | 2 => .value2
  | 3 => .value3

theorem valueWord_getLsbD (v : Wide) (k : Fin 4) {i : Nat} (hi : i < 32) :
    (valueWord v k).getLsbD i = v.getLsbD (32 * k.val + i) := by
  simp [valueWord, hi]

theorem valueWord_setValueWord (v : Wide) (j k : Fin 4) (w : Word) :
    valueWord (setValueWord v j w) k = if k = j then w else valueWord v k := by
  apply BitVec.eq_of_getLsbD_eq
  intro i hi
  rw [valueWord_getLsbD _ k hi, setValueWord_getLsbD v j w _ (by omega)]
  by_cases h : k = j
  · subst h
    simp [hi]
  · have hne : ¬(32 * j.val ≤ 32 * k.val + i ∧ 32 * k.val + i < 32 * j.val + 32) := by omega
    rw [if_neg hne, if_neg h, valueWord_getLsbD v k hi]

/-- VALUE is its four words. -/
theorem value_ext {v v' : Wide} (h : ∀ k, valueWord v k = valueWord v' k) : v = v' := by
  apply BitVec.eq_of_getLsbD_eq
  intro i hi
  have hw := congrArg (fun x => x.getLsbD (i % 32)) (h ⟨i / 32, by omega⟩)
  simpa only [valueWord_getLsbD _ _ (Nat.mod_lt i (by decide : 32 > 0)), Nat.div_add_mod] using hw

-- ==== BUF by words ====

/-- Bytes 4k to 4k+3 of BUF as a word (20_memory.md R50). -/
def bufWord (b : Bytes9) (k : Fin 2) : Word :=
  b[4 * k.val + 3] ++ b[4 * k.val + 2] ++ b[4 * k.val + 1] ++ b[4 * k.val]

/-- The register that holds them. -/
def bufReg : Fin 2 → Reg
  | 0 => .buf0
  | 1 => .buf1

theorem bufWord_eq_of_bytes {b : Bytes9} {k : Fin 2} {w : Word}
    (h : ∀ j < 4, byteAt b (4 * k.val + j) = w.extractLsb' (8 * j) 8) : bufWord b k = w := by
  have h0 := h 0 (by decide)
  have h1 := h 1 (by decide)
  have h2 := h 2 (by decide)
  have h3 := h 3 (by decide)
  rw [byteAt_lt _ (by omega)] at h0 h1 h2 h3
  simp only [bufWord, h1, h2, h3]
  rw [show b[4 * k.val] = w.extractLsb' 0 8 from h0]
  exact fourBytes_of_word w

theorem bufWord_congr {b b' : Bytes9} {k : Fin 2} (h : ∀ j < 4, byteAt b (4 * k.val + j) = byteAt b' (4 * k.val + j)) :
    bufWord b k = bufWord b' k := by
  have h0 := h 0 (by decide)
  have h1 := h 1 (by decide)
  have h2 := h 2 (by decide)
  have h3 := h 3 (by decide)
  rw [byteAt_lt _ (by omega), byteAt_lt _ (by omega)] at h0 h1 h2 h3
  simp only [Nat.add_zero] at h0
  simp only [bufWord, h0, h1, h2, h3]

theorem bufWord_setBufWord (b : Bytes9) (j k : Fin 2) (w : Word) :
    bufWord (setBufWord b j w) k = if k = j then w else bufWord b k := by
  by_cases h : k = j
  · subst h
    rw [if_pos rfl]
    refine bufWord_eq_of_bytes fun i hi => ?_
    rw [byteAt_setBufWord, if_pos (by omega), Nat.add_sub_cancel_left]
  · rw [if_neg h]
    refine bufWord_congr fun i hi => ?_
    rw [byteAt_setBufWord, if_neg (by omega)]

theorem bufWord_set_eight (b : Bytes9) (x : Byte) (k : Fin 2) : bufWord (b.set 8 x) k = bufWord b k := by
  refine bufWord_congr fun i hi => ?_
  rw [byteAt_set _ _ _ _ (by decide), if_neg (by omega)]

theorem setBufWord_getElem_eight (b : Bytes9) (k : Fin 2) (w : Word) : (setBufWord b k w)[8] = b[8] := by
  rw [← byteAt_lt _ (by decide), byteAt_setBufWord, if_neg (by omega), byteAt_lt]

-- ==== A register after a store ====

theorem readReg_setValueWord_other (s : State) (k : Fin 4) (w : Word) {r : Reg} (h : r ≠ valueReg k) :
    readReg { s with value := setValueWord s.value k w } r = readReg s r := by
  have hword (j : Fin 4) (hj : valueReg j ≠ valueReg k) :
      valueWord (setValueWord s.value k w) j = valueWord s.value j := by
    rw [valueWord_setValueWord, if_neg (fun e => hj (congrArg valueReg e))]
  cases r with
  | value0 => exact hword 0 h
  | value1 => exact hword 1 h
  | value2 => exact hword 2 h
  | value3 => exact hword 3 h
  | _ => rfl

theorem readReg_setBufWord_other (s : State) (k : Fin 2) (w : Word) {r : Reg} (h : r ≠ bufReg k) :
    readReg { s with buf := setBufWord s.buf k w } r = readReg s r := by
  have hword (j : Fin 2) (hj : bufReg j ≠ bufReg k) : bufWord (setBufWord s.buf k w) j = bufWord s.buf j := by
    rw [bufWord_setBufWord, if_neg (fun e => hj (congrArg bufReg e))]
  cases r with
  | buf0 => exact hword 0 h
  | buf1 => exact hword 1 h
  | buf2 => exact congrArg (fun x => 0#24 ++ x) (setBufWord_getElem_eight s.buf k w)
  | _ => rfl

theorem readReg_set_eight_other (s : State) (x : Byte) {r : Reg} (h : r ≠ .buf2) :
    readReg { s with buf := s.buf.set 8 x } r = readReg s r := by
  cases r with
  | buf0 => exact bufWord_set_eight s.buf x 0
  | buf1 => exact bufWord_set_eight s.buf x 1
  | buf2 => exact absurd rfl h
  | _ => rfl

/-- A store changes no other register's word (10_state.md R25 to R27). -/
theorem readReg_storeReg_other {r r' : Reg} (w : Word) (s : State) (h : r' ≠ r) :
    readReg (storeReg r w s) r' = readReg s r' := by
  cases r with
  | id | cmd | status => rfl
  | value0 => exact readReg_setValueWord_other s 0 w h
  | value1 => exact readReg_setValueWord_other s 1 w h
  | value2 => exact readReg_setValueWord_other s 2 w h
  | value3 => exact readReg_setValueWord_other s 3 w h
  | len =>
    cases r' with
    | len => exact absurd rfl h
    | _ => rfl
  | buf0 => exact readReg_setBufWord_other s 0 w h
  | buf1 => exact readReg_setBufWord_other s 1 w h
  | buf2 => exact readReg_set_eight_other s _ h

theorem zero_append_byte (x : Byte) : 0#24 ++ x = x.setWidth 32 := by
  apply BitVec.eq_of_getLsbD_eq
  intro i hi
  rw [BitVec.getLsbD_append, BitVec.getLsbD_setWidth]
  by_cases h : i < 8
  · simp [h, hi]
  · simp [h, BitVec.getLsbD_of_ge x i (not_lt.mp h)]

/-- The word a data register holds after a store: BUF2 keeps the low byte (10_state.md R25 to R27). -/
theorem readReg_storeReg {r : Reg} (w : Word) (s : State) (h : isData r = true) :
    readReg (storeReg r w s) r = if r = .buf2 then (w.extractLsb' 0 8).setWidth 32 else w := by
  have hvalue (k : Fin 4) : valueWord (setValueWord s.value k w) k = w := by rw [valueWord_setValueWord, if_pos rfl]
  have hbuf (k : Fin 2) : bufWord (setBufWord s.buf k w) k = w := by rw [bufWord_setBufWord, if_pos rfl]
  cases r with
  | id | cmd | status => cases h
  | value0 => exact hvalue 0
  | value1 => exact hvalue 1
  | value2 => exact hvalue 2
  | value3 => exact hvalue 3
  | len => rfl
  | buf0 => exact hbuf 0
  | buf1 => exact hbuf 1
  | buf2 =>
    have hbyte : (s.buf.set 8 (w.extractLsb' 0 8))[8] = w.extractLsb' 0 8 := Vector.getElem_set_self _
    exact (congrArg (fun x => 0#24 ++ x) hbyte).trans (zero_append_byte _)

-- ==== Runs of stores ====

theorem runEvents_cons {e : Event} {es : List Event} {s t : State} (h : runEvent e s = .next t) :
    runEvents (e :: es) s = runEvents es t := by
  simp only [runEvents, h]

/-- A write of a data register at the head of a run, while idle (20_memory.md R46). -/
theorem runEvents_wr_cons {r : Reg} (w : Word) (es : List Event) {s : State} (hr : s.rst = false) (hs : s.opr = .none)
    (hd : isData r = true) : runEvents (wr r w :: es) s = runEvents es (storeReg r w s) := by
  obtain ⟨hdrop, hc⟩ : droppedWhileBusy r = true ∧ r ≠ .cmd := by simpa [isData] using hd
  exact runEvents_cons (runEvent_write_store w hr hs hc hdrop)

/-- Four words stored one after another are the whole VALUE. -/
theorem setValueWord_all (v n : Wide) :
    setValueWord (setValueWord (setValueWord (setValueWord v 0 (valueWord n 0)) 1 (valueWord n 1)) 2 (valueWord n 2)) 3
      (valueWord n 3) = n := by
  refine value_ext fun k => ?_
  simp only [valueWord_setValueWord]
  fin_cases k <;> rfl

/-- Two words and the last byte stored one after another are the whole BUF. -/
theorem setBufWord_all (b n : Bytes9) :
    (setBufWord (setBufWord b 0 (bufWord n 0)) 1 (bufWord n 1)).set 8 (BitVec.extractLsb' (n := 32) 0 8 (0#24 ++ n[8])) = n := by
  have hlast : BitVec.extractLsb' (n := 32) 0 8 (0#24 ++ n[8]) = byteAt n 8 := by
    rw [zero_append_byte, byteAt_lt n (by decide)]
    apply BitVec.eq_of_getLsbD_eq
    intro i hi
    simp [hi, show i < 32 by omega]
  have hbyte (a : Nat) (k : Fin 2) (ha : a = 4 * k.val) {j : Nat} (h : a ≤ j ∧ j < a + 4) :
      (bufWord n k).extractLsb' (8 * (j - a)) 8 = byteAt n j := by
    subst ha
    have hp := packed_byte n (a := 4 * k.val) (j := j - 4 * k.val) (by omega) (by omega)
    rwa [Nat.add_sub_cancel' h.1] at hp
  refine bytes9_ext fun j hj => ?_
  rw [byteAt_set _ _ _ _ (by decide), byteAt_setBufWord, byteAt_setBufWord]
  split_ifs with h8 h1 h0
  · rw [hlast, h8]
  · exact hbyte 4 1 rfl h1
  · exact hbyte 0 0 rfl h0
  · omega

-- ==== An access acts by its word offset ====

theorem runEvent_read_congr {off off' : BitVec 6} (h : wordOffset off = wordOffset off') (size : Nat) (s : State) :
    runEvent (.read off size) s = runEvent (.read off' size) s := by
  simp only [runEvent, busRead, h]

theorem runEvent_write_congr {off off' : BitVec 6} (h : wordOffset off = wordOffset off') (size : Nat) (w : Word) (s : State) :
    runEvent (.write off size w) s = runEvent (.write off' size w) s := by
  simp only [runEvent, busWrite, h]

theorem wordOffset_and_mask (off : BitVec 6) : wordOffset (off &&& 0x3C) = wordOffset off := by
  revert off; decide

theorem wordOffset_byteOffset (o : BitVec 4) : wordOffset (byteOffset o) = o := by
  revert o; decide

theorem wordOffset_ofNat (n : Nat) : wordOffset (BitVec.ofNat 6 n) = BitVec.ofNat 4 (n / 4) := by
  apply BitVec.eq_of_toNat_eq
  simp only [wordOffset, BitVec.extractLsb'_toNat, BitVec.toNat_ofNat, Nat.shiftRight_eq_div_pow]
  omega

/-- Rounding an address down to its word keeps the word offset, the window being aligned (20_memory.md R41, R44). -/
theorem wordOffset_windowOffset_rounded {p : Config.Platform} (hp : p.wellFormed = true) (a : Nat) :
    wordOffset (windowOffset p (a / 4 * 4)) = wordOffset (windowOffset p a) := by
  have hbase : p.varintBase % 64 = 0 := by simpa [Config.Platform.wellFormed, Config.window] using hp
  rw [windowOffset, windowOffset, wordOffset_ofNat, wordOffset_ofNat]
  congr 1
  omega

/-- The event of an access at a byte offset. -/
def accessEvent (kind : AccessKind) (off : BitVec 6) (size : Nat) : Event :=
  match kind with
  | .read => .read off size
  | .write w => .write off size w

theorem runEvent_accessEvent_congr (kind : AccessKind) {off off' : BitVec 6} (h : wordOffset off = wordOffset off')
    (size : Nat) (s : State) : runEvent (accessEvent kind off size) s = runEvent (accessEvent kind off' size) s := by
  cases kind with
  | read => exact runEvent_read_congr h size s
  | write w => exact runEvent_write_congr h size w s

theorem busAccess_inside {p : Config.Platform} {a : BusAccess} (s : State)
    (h : p.varintBase ≤ a.addr ∧ a.addr < p.varintBase + 64) :
    busAccess p a s = runEvent (accessEvent a.kind (windowOffset p a.addr) a.size) s := by
  have hsel : p.selects a.addr = true := decide_eq_true h
  simp only [busAccess, presented, hsel]
  cases a.kind <;> rfl

theorem busAccess_outside {p : Config.Platform} {a : BusAccess} (s : State)
    (h : ¬(p.varintBase ≤ a.addr ∧ a.addr < p.varintBase + 64)) : busAccess p a s = .refused (.outsideWindow a.addr) := by
  have hsel : p.selects a.addr = false := decide_eq_false h
  simp only [busAccess, presented, hsel]
  rfl

-- ==== Reference cycles ====

/-- With rst low throughout, a cycle is its access and, if the block was busy, one datapath step (70_reset_and_hazards.md R151). -/
theorem cycle_eq {s : State} {p : Pins} (hr : s.rst = false) (hp : p.rst = false) :
    cycle p s = runEvents (cycleAccess p ++ if s.busy then [.tick] else []) s := by
  have hrelease : runEvent (.setRst p.rst) s = .next s := by
    rw [hp]
    exact congrArg (fun l => Host.Outcome.next { s with rst := l }) hr.symm
  rw [cycle, cycleEvents, List.cons_append, runEvents_cons hrelease, hp, Bool.not_false, Bool.true_and]

theorem runEvents_tick (s : State) : runEvents [.tick] s = tick s := by
  simp only [runEvents, runEvent]
  cases tick s <;> rfl

/-- A busy cycle with an access takes its datapath step after it. -/
theorem cycle_busy_access {s t : State} {p : Pins} {e : Event} (hr : s.rst = false) (hp : p.rst = false)
    (hb : s.opr ≠ .none) (ha : cycleAccess p = [e]) (he : runEvent e s = .next t) : cycle p s = tick t := by
  rw [cycle_eq hr hp, ha, if_pos ((busy_iff s).mpr hb), List.singleton_append, runEvents_cons he, runEvents_tick]

theorem cycleAccess_write {p : Pins} (hs : p.sel = true) (hw : p.we = true) :
    cycleAccess p = [.write (byteOffset p.addr) 4 p.wdata] := by
  simp [cycleAccess, hs, hw]

theorem cycleAccess_read {p : Pins} (hs : p.sel = true) (hw : p.we = false) :
    cycleAccess p = [.read (byteOffset p.addr) 4] := by
  simp [cycleAccess, hs, hw]

theorem cycleAccess_none {p : Pins} (hs : p.sel = false) : cycleAccess p = [] := by simp [cycleAccess, hs]

-- ==== The obligations ====

/-- Settles O19: the access acts by its word offset, which neither the mask nor the rounding changes. -/
theorem busAddressDecode : Obligations.BusAddressDecode := by
  unfold Obligations.BusAddressDecode
  refine fun p a s hp => ⟨fun h => ⟨?_, ?_⟩, busAccess_outside s⟩
  · rw [busAccess_inside s h, runEvent_accessEvent_congr a.kind (wordOffset_and_mask _).symm]
    cases a.kind <;> rfl
  · have hbase : p.varintBase % 64 = 0 := by simpa [Config.Platform.wellFormed, Config.window] using hp
    rw [busAccess_inside s h, busAccess_inside s (a := { a with addr := a.addr / 4 * 4 }) (by simp only; omega)]
    exact runEvent_accessEvent_congr a.kind (wordOffset_windowOffset_rounded hp a.addr) a.size s

/-- Settles O23: the write is a store, which changes its own register's word alone. -/
theorem dataRegisterReadsBackWrite : Obligations.DataRegisterReadsBackWrite := by
  unfold Obligations.DataRegisterReadsBackWrite
  intro s r w hr hs hid hcmd hstatus
  have hdrop : droppedWhileBusy r = true := by
    cases r with
    | id => exact absurd rfl hid
    | status => exact absurd rfl hstatus
    | _ => rfl
  refine ⟨storeReg r w s, runEvent_write_store w hr hs hcmd hdrop, readReg_storeReg w s (by simp [isData, hdrop, hcmd]),
    fun r' h => readReg_storeReg_other w s h, ?_⟩
  simp

/-- Settles O54: each write of the expansion is a store, and together they replace the whole operand. -/
theorem operandPseudosStoreOperands : Obligations.OperandPseudosStoreOperands := by
  unfold Obligations.OperandPseudosStoreOperands
  refine fun s hr hs => ⟨fun n => ?_, fun b l => ?_⟩
  · rw [expand, runEvents_wr_cons _ _ hr hs rfl, runEvents_wr_cons _ _ (by simpa) (by simpa) rfl,
      runEvents_wr_cons _ _ (by simpa) (by simpa) rfl, runEvents_wr_cons _ _ (by simpa) (by simpa) rfl]
    exact congrArg (fun v => Host.Outcome.next { s with value := v }) (setValueWord_all s.value n)
  · rw [expand, runEvents_wr_cons _ _ hr hs rfl, runEvents_wr_cons _ _ (by simpa) (by simpa) rfl,
      runEvents_wr_cons _ _ (by simpa) (by simpa) rfl, runEvents_wr_cons _ _ (by simpa) (by simpa) rfl]
    exact congrArg (fun x => Host.Outcome.next { s with buf := x, len := l }) (setBufWord_all s.buf b)

/-- Settles O55: `cycle_eq`, with no datapath step while idle and one after the access while busy. -/
theorem referenceCycle : Obligations.ReferenceCycle := by
  unfold Obligations.ReferenceCycle
  refine fun s p hr hp => ⟨fun hs => ?_, fun hb hsel hwe r ha hd => ?_, fun hb hsel hwe => ?_, fun hb hsel => ?_⟩
  · rw [cycle_eq hr hp, if_neg (by simp [hs]), List.append_nil]
  · rw [← wordOffset_byteOffset p.addr] at ha
    exact cycle_busy_access hr hp hb (cycleAccess_write hsel hwe) (runEvent_write_dropped p.wdata hr hb ha hd)
  · refine cycle_busy_access hr hp hb (cycleAccess_read hsel hwe) ?_
    simp [runEvent, busRead_eq, hr, wordOffset_byteOffset]
  · rw [cycle_eq hr hp, cycleAccess_none hsel, if_pos ((busy_iff s).mpr hb), List.nil_append, runEvents_tick]

/-- Settles O4: a reset and each change of the level have one equation by definition; a held datapath step is `tick_held`. -/
theorem rstLevelResetsAndReleases : Obligations.RstLevelResetsAndReleases := by
  unfold Obligations.RstLevelResetsAndReleases
  exact fun s => ⟨rfl, tick_held, rfl, rfl⟩

/-- Settles O5: a step is the next event (`step_cons`), and a write to CMD runs its command (`runEvent_write_cmd`). -/
theorem stepRunsDecodedCommand : Obligations.StepRunsDecodedCommand := by
  unfold Obligations.StepRunsDecodedCommand
  exact ⟨fun s off w rest hp hr ho => (step_cons hp).trans (runEvent_write_cmd (s := { s with pending := rest }) w hr ho),
    fun s e rest => step_cons, fun s => step_nil⟩

/-- Settles O13: a busy block drops every command. -/
theorem commandWhileBusyDropped : Obligations.CommandWhileBusyDropped := by
  unfold Obligations.CommandWhileBusyDropped
  exact fun i s => exec_busy i

/-- Settles O17: both kinds of access look at the width first. -/
theorem otherWidthsRefused : Obligations.OtherWidthsRefused := by
  unfold Obligations.OtherWidthsRefused
  exact fun s off size h => ⟨if_pos h, fun w => if_pos h⟩

end Sys2Proof.Machine
end
